-- ==== Sys2Proof/Word.lean ====
section
/-!
DEFINITION. The few fixed-width types the spec treats as bits (00_scope.md R12): bytes, the words of the register port, the
signals of the frame port. Sample codes, counts, indices and lengths are natural numbers and amplitudes are rationals (R11).
-/

namespace Sys2Proof

/-- A byte, 8 bits (00_scope.md R12). -/
abbrev Byte := BitVec 8

/-- A register read on the register port is one 32-bit word (10_state.md R30). -/
abbrev Word32 := BitVec 32

/-- A frame as it lies in the output queue: its payload bytes alone, in arrival order (10_state.md R29). -/
abbrev Frame := List Byte

end Sys2Proof
end

