-- ==== Sys2Proof/Config.lean ====
section
/-!
DEFINITION. The configuration of one block instance: the protocol constants `CFG` (00_scope.md R5, R6), the implementation
parameters of R7, and the one free value of the model (log 10).
-/

namespace Sys2Proof

/-- The static configuration of a block instance. The threshold is the exact rational `thrNum / thrDen` (R5). `none` in `nmax` and
`fqDepth` is the spec's "unbounded" (R7). -/
structure Config where
  /-- `W`, window width of the moving average, in samples. -/
  w : Nat
  /-- `G`, gain applied to the window sum. -/
  g : Nat
  /-- `THR_NUM`. -/
  thrNum : Nat
  /-- `THR_DEN`. -/
  thrDen : Nat
  /-- `MINGAP`, the gap in samples that an edge must exceed. -/
  mingap : Nat
  /-- `PERIOD`, the bit period in samples. -/
  period : Nat
  /-- `AW`, width of a sample code in bits. -/
  aw : Nat
  /-- `AF`, fraction bits of a sample code. -/
  af : Nat
  /-- `NMAX`, the most samples a block may hold. -/
  nmax : Option Nat
  /-- `FQ_DEPTH`, capacity of the output queue in frames. -/
  fqDepth : Option Nat
deriving DecidableEq, Repr

namespace Config

/-- The defaults of R5 and R7. The spec leaves `NMAX` and `FQ_DEPTH` OPEN; the default instance has both unbounded
(DESIGN CHOICE, log 2). -/
def default : Config where
  w := 1000
  g := 300
  thrNum := 1
  thrDen := 20
  mingap := 10
  period := 3300
  aw := 16
  af := 15
  nmax := none
  fqDepth := none

/-- `n` is strictly below an optional bound; every number is below "unbounded". -/
def below : Option Nat → Nat → Bool
  | none, _ => true
  | some b, n => decide (n < b)

/-- `n` does not exceed an optional bound. -/
def atMost : Option Nat → Nat → Bool
  | none, _ => true
  | some b, n => decide (n ≤ b)

/-- `n` has reached an optional bound; "unbounded" is never reached. -/
def reached : Option Nat → Nat → Bool
  | none, _ => false
  | some b, n => decide (n = b)

/-- The legal configurations (R6, and the ranges R7 gives `NMAX` and `FQ_DEPTH`). -/
def legal (c : Config) : Bool :=
  decide (1 ≤ c.w) && decide (1 ≤ c.thrDen) && decide (1 ≤ c.period) &&
  decide (c.w < 2 ^ 32) && decide (c.g < 2 ^ 32) && decide (c.thrNum < 2 ^ 32) && decide (c.thrDen < 2 ^ 32) &&
  decide (c.mingap < 2 ^ 32) && decide (c.period < 2 ^ 32) &&
  c.nmax.all (fun n => decide (1 ≤ n) && decide (n < 2 ^ 32)) &&
  c.fqDepth.all (fun n => decide (1 ≤ n))

/-- `THR` as the exact rational (R5). -/
def thr (c : Config) : Rat := (c.thrNum : Rat) / (c.thrDen : Rat)

/-- `LMAX`, capacity of the envelope memory (R7). -/
def lmax (c : Config) : Option Nat :=
  c.nmax.map (fun n => if c.w ≤ n then n - c.w + 1 else 0)

/-- `PAYMAX`, capacity of the payload buffer in bytes (R7). -/
def paymax : Nat := 127

/-- `LANES` (R7): the block is one lane. -/
def lanes : Nat := 1

/-- FREE VALUE (log 10). `COUNT` is `CNT` zero-extended to 32 bits (10_state.md R30); with `NMAX` unbounded `CNT` may need more
than 32 bits, and the spec does not say what the register then reads. -/
opaque countBeyond : Nat → Word32

end Config

end Sys2Proof
end

