-- ==== Sys2Proof/Syntax.lean ====
section
/-!
DEFINITION. The operations of the block: one constructor for each row of spec/opcode_table.json (30_encoding.md R90), and the
requests by which the agents bring them (00_scope.md R9).
-/

namespace Sys2Proof

/-- One operation of the block. -/
inductive Instr where
  /-- `NOP` (40_block_control.md R101). -/
  | nop
  /-- `SAMPLE d`: one amplitude sample, `d` its code (R102). -/
  | sample (d : Nat)
  /-- `SAMPLE_LAST d`: one sample, then the block is closed (R103). -/
  | sampleLast (d : Nat)
  /-- `END`: closes the block (R104). -/
  | endBlock
  /-- `DONE`: internal step that ends the scan (R105). -/
  | done
  /-- `POP`: polls the output queue (R106). -/
  | pop
  /-- `RDREG n`: reads register `n` (R107). -/
  | rdreg (n : Nat)
  /-- `RESET` (R108). -/
  | reset
  /-- `SLICE`: internal step that examines one envelope index (42_slicer_gap.md R141). -/
  | slice
  /-- `BIT`: internal step that gives one pending bit to the accumulator (R147). -/
  | bit
  /-- `HDR`: a header byte on the wire, `len` its bits 7:1 and `mark` its bit 0 (30_encoding.md R71). -/
  | hdr (len : BitVec 7) (mark : Bool)
  /-- `PAYLOAD`: a payload byte on the wire (30_encoding.md R72). -/
  | payload (v : Byte)
  /-- `GAP`: a distance in samples between two pulses (30_encoding.md R75). -/
  | gap (g : Nat)
deriving DecidableEq, Repr

/-- Where a request arrives. The first four are ports of 30_encoding.md R80; `datapath` is the datapath's own turn (it has no port);
the two wire ports carry the wire items of the opcode table: a byte, for the datapath's step that completes it (log 7), and a gap to
decode (log 8). -/
inductive Port where
  /-- `c_valid` = 1 with `c_word` (R81, R82). -/
  | command
  /-- `f_pop` (R85). -/
  | frame
  /-- `r_num` (R86). -/
  | register
  /-- `rst` (R87). -/
  | resetPin
  /-- The datapath's own turn (10_state.md R22). -/
  | datapath
  /-- A whole byte of the wire format (R71, R72). -/
  | wireByte
  /-- A measured gap (R75). -/
  | wireGap
deriving DecidableEq, Repr

/-- One agent's turn: the port it uses and the word it presents there. -/
structure Request where
  port : Port
  word : Nat
deriving DecidableEq, Repr

end Sys2Proof
end

