-- ==== Sys2Proof/WellFormed.lean ====
section
/-!
DEFINITION. Which operands an operation may carry, in a given configuration.
-/

namespace Sys2Proof

/-- The operand bounds of the spec: a sample code has `AW` bits (40_block_control.md R102); a decoded gap exceeds `MINGAP`
(42_slicer_gap.md R145). Every register number is allowed (R107), and the wire bytes carry their widths in their types. -/
def Instr.wellFormed (c : Config) : Instr → Bool
  | .nop => true
  | .sample d => decide (d < 2 ^ c.aw)
  | .sampleLast d => decide (d < 2 ^ c.aw)
  | .endBlock => true
  | .done => true
  | .pop => true
  | .rdreg _ => true
  | .reset => true
  | .slice => true
  | .bit => true
  | .hdr _ _ => true
  | .payload _ => true
  | .gap g => decide (c.mingap < g)

end Sys2Proof
end

