-- ==== Sys2Proof/Decode.lean ====
section
/-!
DEFINITION. From the words on the ports to operations and back (30_encoding.md parts A, B and D). `decode` is total: it gives an
operation or rejects the word by name. `encode` writes the word of an operation from the same tables.
-/

namespace Sys2Proof

/-- Why a port word is no operation of its port. -/
inductive Reject where
  /-- The word has more bits than the port (R80). -/
  | wordTooWide (port : Port)
  /-- The request line is low: `f_pop` = 0 or `rst` = 0 asks for nothing (R85, R87). -/
  | lineLow (port : Port)
deriving DecidableEq, Repr

/-- What a word's reading depends on beside the word: `aw`, the width of a sample code (R82); `awaiting`, whether the accumulator
awaits a header (R72: a byte's role is decided by the accumulator state alone); `due`, the internal step that the state enables
(10_state.md R22). -/
structure Context where
  aw : Nat
  awaiting : Bool
  due : Instr
deriving DecidableEq, Repr

/-- The context of a block just reset at the default configuration: a header is awaited and no internal step is due. -/
def Context.fresh : Context where
  aw := Config.default.aw
  awaiting := true
  due := .nop

/-- The command word (R82, R83): `op` on the two bits above the `AW`-bit field `d`; `d` is ignored by `NOP` and `END`; no word of the
port's width is illegal. -/
def decodeCommand (aw w : Nat) : Except Reject Instr :=
  let d := w % 2 ^ aw
  match w / 2 ^ aw with
  | 0 => .ok .nop
  | 1 => .ok (.sample d)
  | 2 => .ok (.sampleLast d)
  | 3 => .ok .endBlock
  | _ => .error (.wordTooWide .command)

/-- A one-bit request line: 1 asks for the operation, 0 asks for nothing. -/
def decodeLine (port : Port) (i : Instr) (w : Nat) : Except Reject Instr :=
  match w with
  | 0 => .error (.lineLow port)
  | 1 => .ok i
  | _ => .error (.wordTooWide port)

/-- A wire byte (R71, R72): a header when one is awaited, with `len` on bits 7:1 and the marker on bit 0, else a payload byte. -/
def decodeByte (awaiting : Bool) (w : Nat) : Except Reject Instr :=
  if w < 256 then
    let v : Byte := BitVec.ofNat 8 w
    .ok (if awaiting then .hdr (v.extractLsb' 1 7) (v.getLsbD 0) else .payload v)
  else
    .error (.wordTooWide .wireByte)

/-- The operation a request stands for (R90). -/
def decode (ctx : Context) (r : Request) : Except Reject Instr :=
  match r.port with
  | .command => decodeCommand ctx.aw r.word
  | .frame => decodeLine .frame .pop r.word
  | .register => .ok (.rdreg r.word)
  | .resetPin => decodeLine .resetPin .reset r.word
  | .datapath => .ok ctx.due
  | .wireByte => decodeByte ctx.awaiting r.word
  | .wireGap => .ok (.gap r.word)

/-- The header byte `LLLLLLLM` (R71): the length on bits 7:1, the marker on bit 0. -/
def headerByte (len : BitVec 7) (mark : Bool) : Byte :=
  len ++ BitVec.ofBool mark

/-- The request that asks for an operation. Ignored bits are written as 0. The internal steps have no bit pattern (R90): their request
is the datapath's turn. -/
def encode (aw : Nat) : Instr → Request
  | .nop => ⟨.command, 0⟩
  | .sample d => ⟨.command, 1 * 2 ^ aw + d⟩
  | .sampleLast d => ⟨.command, 2 * 2 ^ aw + d⟩
  | .endBlock => ⟨.command, 3 * 2 ^ aw⟩
  | .done => ⟨.datapath, 0⟩
  | .pop => ⟨.frame, 1⟩
  | .rdreg n => ⟨.register, n⟩
  | .reset => ⟨.resetPin, 1⟩
  | .slice => ⟨.datapath, 0⟩
  | .bit => ⟨.datapath, 0⟩
  | .hdr len mark => ⟨.wireByte, (headerByte len mark).toNat⟩
  | .payload v => ⟨.wireByte, v.toNat⟩
  | .gap g => ⟨.wireGap, g⟩

/-- The states' contexts in which an operation's request stands for it: a header byte is a header when one is awaited, any other wire
byte is payload (R72), and an internal step is the one that is due (R22). -/
def Context.admits (ctx : Context) : Instr → Bool
  | .hdr _ _ => ctx.awaiting
  | .payload _ => !ctx.awaiting
  | .slice => decide (ctx.due = .slice)
  | .bit => decide (ctx.due = .bit)
  | .done => decide (ctx.due = .done)
  | .nop => true
  | .sample _ => true
  | .sampleLast _ => true
  | .endBlock => true
  | .pop => true
  | .rdreg _ => true
  | .reset => true
  | .gap _ => true

/-- The request that a word of spec/opcode_table.json stands for, read from its width alone, since a table word does not name its
port. A word of more than one byte is a command word. In one byte, 1 is `POP` (the rows `POP` and `RESET` have the same one-bit
pattern), the other values below 8 are register numbers, and the rest are wire bytes (DESIGN CHOICE, log 9). No bits at all is
the datapath's turn. -/
def tableRequest (nbits w : Nat) : Request :=
  if nbits = 0 then ⟨.datapath, w⟩
  else if nbits ≤ 8 then
    if w = 1 then ⟨.frame, w⟩
    else if w < 8 then ⟨.register, w⟩
    else ⟨.wireByte, w⟩
  else ⟨.command, w⟩

/-- The operation a table word stands for, in a block just reset. A row without bits selects no operation by its bits (R90). -/
def decodeTableWord (nbits w : Nat) : Option Instr :=
  if nbits = 0 then none
  else
    match decode Context.fresh (tableRequest nbits w) with
    | .ok i => some i
    | .error _ => none

end Sys2Proof
end

