-- ==== Sys2Proof/Machine/State.lean ====
section
/-!
DEFINITION. The state of one block instance: the thirteen elements of 10_state.md R20, and the model's three own fields (the
configuration, the turns to come, the last response). Plain data throughout.
-/

namespace Sys2Proof.Machine

/-- `PHASE` (10_state.md R23). -/
inductive Phase where
  /-- The block accepts samples. -/
  | fill
  /-- The block is closed and its envelope is being scanned. -/
  | scan
deriving DecidableEq, Repr

/-- What a step gives back to the agent that issued it: the `return v` of 00_scope.md R12, or which of the two outcomes of R10 it
had. -/
inductive Response where
  /-- No step has been taken yet. -/
  | idle
  /-- Performed, nothing to return. -/
  | performed
  /-- Not performed: the require line is false, the agent is held (R10). -/
  | held
  /-- `POP`'s answer: the frame, or `none` when the queue was empty (R106). -/
  | frame (f : Option Frame)
  /-- `RDREG`'s answer (R107). -/
  | data (v : Word32)
  /-- `GAP`'s answer: the bits a gap decodes to (42_slicer_gap.md R145). -/
  | bits (bs : List Bool)
deriving DecidableEq, Repr

/-- The state of the block. -/
structure State where
  /-- `CFG`: constant, written by no operation (00_scope.md R5). The model's own field (log 1). -/
  cfg : Config
  /-- The turns the agents are still to take, the next one first (00_scope.md R9). The model's own field (log 3). -/
  requests : List Request
  /-- The answer to the last step. The model's own field (log 6). -/
  resp : Response
  /-- `PHASE`. -/
  phase : Phase
  /-- `CNT`: samples accepted in the current block. -/
  cnt : Nat
  /-- `WIN`: the sliding window, oldest sample first. -/
  win : List Rat
  /-- `ENV`: the envelope trace before mean-centring. -/
  env : List Rat
  /-- `IDX`: the next envelope index the slicer examines. -/
  idx : Nat
  /-- `LAST`: index of the last marked edge. -/
  last : Nat
  /-- `PENDF`: `false` bits decoded and not yet delivered. -/
  pendf : Nat
  /-- `PENDT`: whether the gap's closing `true` bit is still to be delivered. -/
  pendt : Bool
  /-- `EXPLEN`: payload bytes the current frame must have; 0 = awaiting header. -/
  explen : Nat
  /-- `PAY`: payload bytes collected so far. -/
  pay : List Byte
  /-- `PBYTE`: the byte being assembled. -/
  pbyte : Byte
  /-- `PBITS`: how many bits `PBYTE` holds. -/
  pbits : Nat
  /-- `FQ`: the output queue, oldest frame first. -/
  fq : List Frame
deriving DecidableEq, Repr

/-- The block has no fault: "no step of any operation can fail" (60_exceptions.md R180), and a model must not add one (R182). -/
inductive Fault where
deriving DecidableEq, Repr

/-- Why the model gives a request no meaning. -/
inductive Refusal where
  /-- An opcode-table row without a meaning in this model; raised by `exec`'s arm for that row. No arm raises it. Safe: the run ends
  where the block would go on. -/
  | notModelled (mnemonic : String)
  /-- The word on a port is no operation of that port (`Reject` says why); raised by `step` before any operation is chosen. Safe: such
  a word cannot be presented, or asks for nothing (30_encoding.md R80, R85, R87; log 14). -/
  | noRequest (why : Reject)
deriving DecidableEq, Repr

namespace State

/-- A block instance just after reset, with every element at the value of 10_state.md R34. The configuration is the instance's own. -/
def initial (c : Config) : State where
  cfg := c
  requests := []
  resp := .idle
  phase := .fill
  cnt := 0
  win := []
  env := []
  idx := 0
  last := 0
  pendf := 0
  pendt := false
  explen := 0
  pay := []
  pbyte := 0
  pbits := 0
  fq := []

/-- Building an instance: a configuration outside the legal bounds is refused (00_scope.md R6). -/
def build (c : Config) : Option State :=
  if c.legal then some (initial c) else none

/-- The machine right after reset, at the default configuration. -/
def reset : State := initial Config.default

end State

end Sys2Proof.Machine
end

