-- ==== Sys2Proof/Machine/Envelope.lean ====
section
/-!
DEFINITION. The arithmetic of the envelope detector (41_envelope.md): the windowed value of the FIR part, the mean, the rectifier, and the
slicer's level test. Exact rationals throughout (00_scope.md R11).
-/

namespace Sys2Proof.Machine

/-- The envelope value of a full window: the sum, scaled by `G`, divided by `W` (41_envelope.md R121). -/
def windowValue (c : Config) (win : List Rat) : Rat := (win.sum * (c.g : Rat)) / (c.w : Rat)

/-- `Mean(ENV)` over the whole trace (41_envelope.md R124); only ever evaluated for a trace that is not empty. -/
def mean (env : List Rat) : Rat := env.sum / (env.length : Rat)

/-- `Rect(k)`: mean-centred and clamped at zero (41_envelope.md R125). -/
def rect (env : List Rat) (k : Nat) : Rat := max 0 (env.getD k 0 - mean env)

/-- The slicer's level test at index `k`, strictly above the threshold (42_slicer_gap.md R142). -/
def isCandidate (c : Config) (env : List Rat) (k : Nat) : Bool := decide (rect env k > c.thr)

/-- The running-sum form of the FIR part (41_envelope.md R123): the window, its sum, and the envelope values so far. An optimisation the
source allows, no state of the block (10_state.md R33). -/
structure RunningSum where
  win : List Rat
  sum : Rat
  env : List Rat
deriving DecidableEq, Repr

/-- Nothing pushed yet. -/
def RunningSum.start : RunningSum := ⟨[], 0, []⟩

/-- One push in the running-sum form: the entering sample is added, and the leaving one subtracted after the output (R123). -/
def RunningSum.push (c : Config) (r : RunningSum) (a : Rat) : RunningSum :=
  let win := r.win ++ [a]
  let sum := r.sum + a
  if win.length = c.w then
    ⟨win.tail, sum - win.headD 0, r.env ++ [(sum * (c.g : Rat)) / (c.w : Rat)]⟩
  else
    ⟨win, sum, r.env⟩

/-- The envelope trace of a list of integer window sums: `e[k] = G * S[k] / (W * 2^AF)` (41_envelope.md R129). -/
def envelopeOfSums (c : Config) (sums : List Nat) : List Rat :=
  sums.map (fun s => ((c.g : Rat) * (s : Rat)) / ((c.w : Rat) * ((2 ^ c.af : Nat) : Rat)))

/-- The all-integer slicer test of 41_envelope.md R129 at index `k`, on integer window sums. -/
def integerCandidate (c : Config) (sums : List Nat) (k : Nat) : Bool :=
  decide
    ((c.g : Int) * c.thrDen * ((sums.length : Int) * (sums.getD k 0 : Nat) - (sums.sum : Nat))
      > (c.thrNum : Int) * c.w * ((2 ^ c.af : Nat) : Int) * sums.length)

end Sys2Proof.Machine
end

