-- ==== Sys2Proof/Machine/Flags.lean ====
section
/-!
DEFINITION. The status bits (10_state.md R24, R31), the registers of the register port (R30), and the internal step the state makes due
(R22). The block stores no flag: each is computed from the state at the read.
-/

namespace Sys2Proof.Machine

namespace State

/-- A bit is pending (10_state.md R22). -/
def bitPending (s : State) : Bool := decide (0 < s.pendf) || s.pendt

/-- The output queue can take a frame: `len(FQ) < FQ_DEPTH` (42_slicer_gap.md R147). -/
def room (s : State) : Bool := Config.below s.cfg.fqDepth s.fq.length

/-- The block buffer can take a sample: `CNT < NMAX` (40_block_control.md R102). -/
def space (s : State) : Bool := Config.below s.cfg.nmax s.cnt

/-- `STATUS.BUSY`. -/
def busy (s : State) : Bool := decide (s.phase = .scan)

/-- `STATUS.FAVAIL`. -/
def favail (s : State) : Bool := decide (0 < s.fq.length)

/-- `STATUS.FFULL`. -/
def ffull (s : State) : Bool := Config.reached s.cfg.fqDepth s.fq.length

/-- `STATUS.BFULL`. -/
def bfull (s : State) : Bool := Config.reached s.cfg.nmax s.cnt

/-- `STATUS.AWAIT`: the accumulator awaits a header (10_state.md R24). -/
def awaiting (s : State) : Bool := decide (s.explen = 0)

/-- The `STATUS` register (10_state.md R31), as the sum of shifted fields that the rule writes out. -/
def status (s : State) : Word32 :=
  BitVec.ofNat 32
    (s.busy.toNat ||| s.favail.toNat <<< 1 ||| s.ffull.toNat <<< 2 ||| s.bfull.toNat <<< 3 |||
      s.awaiting.toNat <<< 4 ||| s.pbits <<< 5 ||| s.explen <<< 8 ||| s.pay.length <<< 15)

/-- The `COUNT` register: `CNT` zero-extended (10_state.md R30); a count of more than 32 bits reads as a free value (log 10). -/
def count (s : State) : Word32 :=
  if s.cnt < 2 ^ 32 then BitVec.ofNat 32 s.cnt else Config.countBeyond s.cnt

/-- `R[n]` (10_state.md R30); numbers above 7 read 0 (40_block_control.md R107). -/
def readRegister (s : State) : Nat → Word32
  | 0 => BitVec.ofNat 32 s.cfg.w
  | 1 => BitVec.ofNat 32 s.cfg.g
  | 2 => BitVec.ofNat 32 s.cfg.thrNum
  | 3 => BitVec.ofNat 32 s.cfg.thrDen
  | 4 => BitVec.ofNat 32 s.cfg.mingap
  | 5 => BitVec.ofNat 32 s.cfg.period
  | 6 => s.status
  | 7 => s.count
  | _ => 0

/-- The pulse-gap timer `IDX - LAST` (42_slicer_gap.md R143, 60_exceptions.md R190). -/
def gapTimer (s : State) : Nat := s.idx - s.last

/-- The datapath's next step (10_state.md R22): `BIT` while a bit is pending, else `SLICE` while an index is left, else `DONE`; in
`FILL` the datapath waits, which is a turn like `NOP`'s. -/
def due (s : State) : Instr :=
  match s.phase with
  | .fill => .nop
  | .scan => if s.bitPending then .bit else if s.idx < s.env.length then .slice else .done

/-- What the reading of a port word depends on in this state. -/
def context (s : State) : Context where
  aw := s.cfg.aw
  awaiting := s.awaiting
  due := s.due

end State

end Sys2Proof.Machine
end

