-- ==== Sys2Proof/Machine/Operands.lean ====
section
/-!
DEFINITION. What an operand means: the value of a sample code (30_encoding.md R84), the bits of a wire byte (R70, 20_memory.md R52),
the bits of a gap (42_slicer_gap.md R145, R146).
-/

namespace Sys2Proof.Machine

/-- The amplitude of a sample code, `d / 2^AF`, exact and never negative (30_encoding.md R84). -/
def sampleValue (c : Config) (d : Nat) : Rat := (d : Rat) / ((2 ^ c.af : Nat) : Rat)

/-- The bits of a byte in the order they are sent and received, bit 0 first (20_memory.md R52). -/
def byteBits (v : Byte) : List Bool :=
  (List.range 8).map (fun i => v.getLsbD i)

/-- The bits of a whole frame on the wire: the header byte with its marker set, then the payload bytes in order (30_encoding.md R70,
R71; the pseudo-operation `FRAME` of R89). -/
def frameBits (payload : Frame) : List Bool :=
  byteBits (headerByte (BitVec.ofNat 7 payload.length) true) ++ payload.flatMap byteBits

/-- `NF(gap)`, the number of `false` bits a gap decodes to, in closed form (42_slicer_gap.md R146). -/
def falseCount (period gap : Nat) : Nat := (gap - 1) / period

/-- The loop of `GapBits` (42_slicer_gap.md R145): while the integer `x` is positive, emit `false` and subtract `PERIOD`. The first
argument bounds the rounds so that the recursion is structural; `gap` rounds are always enough, since `PERIOD >= 1` (R6). -/
def gapLoop (period : Nat) : Nat → Int → List Bool
  | 0, _ => []
  | fuel + 1, x => if x > 0 then false :: gapLoop period fuel (x - period) else []

/-- `GapBits(gap)` (42_slicer_gap.md R145): the loop from the signed value `gap - PERIOD`, then one `true`. -/
def gapBits (period gap : Nat) : List Bool :=
  gapLoop period gap ((gap : Int) - (period : Int)) ++ [true]

end Sys2Proof.Machine
end

