-- ==== Sys2Proof/Machine/Ops.lean ====
section
/-!
DEFINITION. The named operations over the state that the meanings share: the functions of 40_block_control.md, 41_envelope.md,
42_slicer_gap.md and 43_deserializer_frame.md, the require lines, and how a step is performed or held (00_scope.md R10). The block takes
no exception and has no trap to return from (60_exceptions.md R180, R186, R187): being held is the only other thing that can happen to an
operation.
-/

namespace Sys2Proof.Machine

/-- `PBYTE` with the next bit in place (43_deserializer_frame.md R161). -/
def nextPartial (s : State) (b : Bool) : Byte :=
  s.pbyte ||| (BitVec.setWidth 8 (BitVec.ofBool b) <<< s.pbits)

namespace State

/-- Gives the agent its answer. -/
def respond (s : State) (r : Response) : State := { s with resp := r }

/-- The operation is not performed and its agent is held: "no state changes" (00_scope.md R10). -/
def hold (s : State) : State := s.respond .held

/-- `EnvPush(a)` (41_envelope.md R121): the sample enters the window; from a full window one envelope value is computed and the oldest
sample is dropped. -/
def envPush (s : State) (a : Rat) : State :=
  let win := s.win ++ [a]
  if win.length = s.cfg.w then
    { s with env := s.env ++ [windowValue s.cfg win], win := win.tail }
  else
    { s with win := win }

/-- The body of `SAMPLE d` (40_block_control.md R102). -/
def takeSample (s : State) (d : Nat) : State :=
  let t := s.envPush (sampleValue s.cfg d)
  { t with cnt := t.cnt + 1 }

/-- `CloseBlock()` (40_block_control.md R104). -/
def closeBlock (s : State) : State :=
  { s with
    phase := .scan
    idx := 0
    last := 0
    pendf := 0
    pendt := false
    explen := 0
    pay := []
    pbyte := 0
    pbits := 0 }

/-- `BlockClear()` (40_block_control.md R109); it writes neither `PHASE` nor `FQ`. -/
def blockClear (s : State) : State :=
  { s with
    cnt := 0
    win := []
    env := []
    idx := 0
    last := 0
    pendf := 0
    pendt := false
    explen := 0
    pay := []
    pbyte := 0
    pbits := 0 }

/-- Loads the pending bits of a gap (42_slicer_gap.md R141): `NF(gap)` times `false`, then one `true`. -/
def loadGap (s : State) (gap : Nat) : State :=
  { s with pendf := falseCount s.cfg.period gap, pendt := true }

/-- The body of `SLICE` (42_slicer_gap.md R141): the level test, the minimum-gap test, the marking of an edge, and the next index. -/
def sliceIndex (s : State) : State :=
  let t :=
    if isCandidate s.cfg s.env s.idx then
      if s.gapTimer > s.cfg.mingap then { s.loadGap s.gapTimer with last := s.idx } else s
    else s
  { t with idx := t.idx + 1 }

/-- `FrameEmit()` (43_deserializer_frame.md R163). -/
def frameEmit (s : State) : State :=
  { s with fq := s.fq ++ [s.pay], pay := [], explen := 0 }

/-- `AccByte(v)` (43_deserializer_frame.md R162). -/
def accByte (s : State) (v : Byte) : State :=
  if s.explen = 0 then
    { s with explen := (v >>> 1).toNat }
  else
    let t := { s with pay := s.pay ++ [v] }
    if t.pay.length = t.explen then t.frameEmit else t

/-- `AccBit(b)` (43_deserializer_frame.md R161), with the eager flush of 90_conflicts.md C2. -/
def accBit (s : State) (b : Bool) : State :=
  let t := { s with pbyte := nextPartial s b, pbits := s.pbits + 1 }
  if t.pbits = 8 then
    { t with pbyte := 0, pbits := 0 }.accByte t.pbyte
  else t

/-- `BITS b0 ... bn` (30_encoding.md R89): `AccBit` on each bit in turn. -/
def accBits (s : State) (bs : List Bool) : State := bs.foldl accBit s

/-- The pending bit that `BIT` delivers next: a `false` while one is left, then the `true` (42_slicer_gap.md R147). -/
def nextBit (s : State) : Bool := !decide (0 < s.pendf)

/-- The body of `BIT` (42_slicer_gap.md R147): the `false` bits of a gap first, then its `true`. -/
def deliverBit (s : State) : State :=
  if s.pendf > 0 then
    { s with pendf := s.pendf - 1 }.accBit false
  else
    { s with pendt := false }.accBit true

/-- The require line of `SAMPLE` and `SAMPLE_LAST` (40_block_control.md R102, R103). -/
def canSample (s : State) : Bool := decide (s.phase = .fill) && s.space

/-- The require line of `END` (R104). -/
def canEnd (s : State) : Bool := decide (s.phase = .fill)

/-- The require line of `SLICE` (42_slicer_gap.md R141). -/
def canSlice (s : State) : Bool := decide (s.phase = .scan) && decide (s.idx < s.env.length) && !s.bitPending

/-- The require line of `BIT` (42_slicer_gap.md R147). -/
def canBit (s : State) : Bool := decide (s.phase = .scan) && s.bitPending && s.room

/-- The require line of `DONE` (40_block_control.md R105). -/
def canDone (s : State) : Bool := decide (s.phase = .scan) && decide (s.idx = s.env.length) && !s.bitPending

/-- The enabled `BIT` step is the one that completes the wire byte `v` (43_deserializer_frame.md R161). -/
def completesByte (s : State) (v : Byte) : Bool :=
  s.canBit && decide (s.pbits = 7) && decide (nextPartial s s.nextBit = v)

/-- The wire byte `v` completes now and is a header: "a byte is a header exactly when `EXPLEN = 0` at the moment it is completed"
(20_memory.md R55; log 7). -/
def canTakeHeader (s : State) (v : Byte) : Bool := s.completesByte v && s.awaiting

/-- The wire byte `v` completes now and is a payload byte (R55; log 7). -/
def canTakePayload (s : State) (v : Byte) : Bool := s.completesByte v && !s.awaiting

/-- The enabling condition of each operation (60_exceptions.md R181). `NOP`, `POP`, `RDREG` and `RESET` are never refused; nor
is `GAP`, which no line of the rule's list names (log 8). -/
def enabled (s : State) : Instr → Bool
  | .nop => true
  | .sample _ => s.canSample
  | .sampleLast _ => s.canSample
  | .endBlock => s.canEnd
  | .done => s.canDone
  | .pop => true
  | .rdreg _ => true
  | .reset => true
  | .slice => s.canSlice
  | .bit => s.canBit
  | .hdr len mark => s.canTakeHeader (headerByte len mark)
  | .payload v => s.canTakePayload v
  | .gap _ => true

end State

/-- One atomic step (00_scope.md R10): performed whole when its require line holds, else the agent is held. -/
def attempt (require : Bool) (body : State → State) (s : State) : Host.Outcome State Fault Refusal :=
  .next (if require then body s else s.hold)

end Sys2Proof.Machine
end

