-- ==== Sys2Proof/Machine/Command.lean ====
section
/-!
DEFINITION. The producer's operations on the command port (40_block_control.md R101 to R104).
-/

namespace Sys2Proof.Machine

/-- `NOP` (40_block_control.md R101): never refused, changes no state. -/
def execNop (s : State) : Host.Outcome State Fault Refusal :=
  attempt true (fun s => s.respond .performed) s

/-- `SAMPLE d` (40_block_control.md R102). -/
def execSample (d : Nat) (s : State) : Host.Outcome State Fault Refusal :=
  attempt s.canSample (fun s => (s.takeSample d).respond .performed) s

/-- `SAMPLE_LAST d` (40_block_control.md R103): the body of `SAMPLE d`, then the body of `END`, in one step. -/
def execSampleLast (d : Nat) (s : State) : Host.Outcome State Fault Refusal :=
  attempt s.canSample (fun s => (s.takeSample d).closeBlock.respond .performed) s

/-- `END` (40_block_control.md R104). -/
def execEndBlock (s : State) : Host.Outcome State Fault Refusal :=
  attempt s.canEnd (fun s => s.closeBlock.respond .performed) s

end Sys2Proof.Machine
end

