-- ==== Sys2Proof/Machine/Consumer.lean ====
section
/-!
DEFINITION. The consumer's operations on the frame port and the register port (40_block_control.md R106, R107).
-/

namespace Sys2Proof.Machine

/-- `POP` (40_block_control.md R106): never refused, never waits. -/
def execPop (s : State) : Host.Outcome State Fault Refusal :=
  attempt true
    (fun s =>
      match s.fq with
      | [] => s.respond (.frame none)
      | f :: rest => { s with fq := rest }.respond (.frame (some f)))
    s

/-- `RDREG n` (40_block_control.md R107): never refused, changes no state. -/
def execRdreg (n : Nat) (s : State) : Host.Outcome State Fault Refusal :=
  attempt true (fun s => s.respond (.data (s.readRegister n))) s

end Sys2Proof.Machine
end

