-- ==== Sys2Proof/Machine/Datapath.lean ====
section
/-!
DEFINITION. The datapath's internal steps (42_slicer_gap.md R141, R147; 40_block_control.md R105).
-/

namespace Sys2Proof.Machine

/-- `SLICE` (42_slicer_gap.md R141). -/
def execSlice (s : State) : Host.Outcome State Fault Refusal :=
  attempt s.canSlice (fun s => s.sliceIndex.respond .performed) s

/-- `BIT` (42_slicer_gap.md R147). -/
def execBit (s : State) : Host.Outcome State Fault Refusal :=
  attempt s.canBit (fun s => s.deliverBit.respond .performed) s

/-- `DONE` (40_block_control.md R105): the block is thrown away; the output queue is kept. -/
def execDone (s : State) : Host.Outcome State Fault Refusal :=
  attempt s.canDone (fun s => { s.blockClear with phase := .fill }.respond .performed) s

end Sys2Proof.Machine
end

