-- ==== Sys2Proof/Machine/ResetPin.lean ====
section
/-!
DEFINITION. `RESET` (40_block_control.md R108, 70_reset_and_hazards.md R200).
-/

namespace Sys2Proof.Machine

/-- `RESET` (40_block_control.md R108): never refused; every element takes its reset value; the configuration is not affected (R200). -/
def execReset (s : State) : Host.Outcome State Fault Refusal :=
  attempt true (fun s => { s.blockClear with phase := .fill, fq := [] }.respond .performed) s

end Sys2Proof.Machine
end

