-- ==== Sys2Proof/Machine/Wire.lean ====
section
/-!
DEFINITION. The wire items of the opcode table (30_encoding.md R70 to R77): what the receiver makes of a byte and of a gap. A wire byte enters
the block one bit at a time, in `BIT` steps alone (10_state.md R25): the operation of a byte is the `BIT` step that completes it
(log 7). A gap is decoded for the agent that asks (log 8).
-/

namespace Sys2Proof.Machine

/-- `HDR`: the `BIT` step that completes a header byte, with the length `len` and the marker `mark` (30_encoding.md R71, 20_memory.md R55;
43_deserializer_frame.md R162, R164). The accumulator is written by that step's `AccBit` and by nothing else (10_state.md R25). -/
def execHdr (len : BitVec 7) (mark : Bool) (s : State) : Host.Outcome State Fault Refusal :=
  attempt (s.canTakeHeader (headerByte len mark)) (fun s => s.deliverBit.respond .performed) s

/-- `PAYLOAD`: the `BIT` step that completes the payload byte `v` (30_encoding.md R72, 20_memory.md R55; 43_deserializer_frame.md R162,
R163). The accumulator is written by that step's `AccBit` and by nothing else (10_state.md R25). -/
def execPayload (v : Byte) (s : State) : Host.Outcome State Fault Refusal :=
  attempt (s.canTakePayload v) (fun s => s.deliverBit.respond .performed) s

/-- `GAP`: a gap that exceeds `MINGAP` decodes to `GapBits(gap)`, which is returned (42_slicer_gap.md R145, R146; 30_encoding.md R75); a
smaller one is ignored as noise and gives no bits (R77). No element is written: `PENDF` and `PENDT` have no writer on a port
(10_state.md R21), and a gap measured by the block itself reaches them through `SLICE`. -/
def execGap (g : Nat) (s : State) : Host.Outcome State Fault Refusal :=
  attempt true (fun s => s.respond (.bits (if g > s.cfg.mingap then gapBits s.cfg.period g else []))) s

end Sys2Proof.Machine
end

