-- ==== Sys2Proof/Machine/Dispatch.lean ====
section
/-!
DEFINITION. One arm for each operation of the block.
-/

namespace Sys2Proof.Machine

/-- The meaning of an operation. -/
def exec (i : Instr) (s : State) : Host.Outcome State Fault Refusal :=
  match i with
  | .nop => Sys2Proof.Machine.execNop s
  | .sample d => Sys2Proof.Machine.execSample d s
  | .sampleLast d => Sys2Proof.Machine.execSampleLast d s
  | .endBlock => Sys2Proof.Machine.execEndBlock s
  | .done => Sys2Proof.Machine.execDone s
  | .pop => Sys2Proof.Machine.execPop s
  | .rdreg n => Sys2Proof.Machine.execRdreg n s
  | .reset => Sys2Proof.Machine.execReset s
  | .slice => Sys2Proof.Machine.execSlice s
  | .bit => Sys2Proof.Machine.execBit s
  | .hdr len mark => Sys2Proof.Machine.execHdr len mark s
  | .payload v => Sys2Proof.Machine.execPayload v s
  | .gap g => Sys2Proof.Machine.execGap g s

end Sys2Proof.Machine
end

