-- ==== Sys2Proof/Machine/Fetch.lean ====
section
/-!
DEFINITION. Which operation the next step runs: the block has no program counter (10_state.md R22); the agent whose turn it is names the
operation by its port and word (00_scope.md R9).
-/

namespace Sys2Proof.Machine

namespace State

/-- The request whose turn it is. When no agent outside presents one, the datapath has its turn (log 3). -/
def nextRequest (s : State) : Request :=
  match s.requests with
  | [] => ⟨.datapath, 0⟩
  | r :: _ => r

/-- The operation the next step runs. -/
def fetch (s : State) : Except Reject Instr := decode s.context s.nextRequest

/-- The state after the turn has been given away: a request has one turn, performed or held; a producer that goes on holding its word
presents it again in a later turn (30_encoding.md R81, log 3). -/
def turnTaken (s : State) : State := { s with requests := s.requests.tail }

end State

end Sys2Proof.Machine
end

