-- ==== Sys2Proof/Machine/Step.lean ====
section
/-!
DEFINITION. One step of the machine: one agent's turn.
-/

namespace Sys2Proof.Machine

/-- One step: the operation whose turn it is runs, atomically (00_scope.md R9, R10). -/
def step (s : State) : Host.Outcome State Fault Refusal :=
  match s.fetch with
  | .ok i => exec i s.turnTaken
  | .error why => .refused (.noRequest why)

namespace State

/-- The state with a word of spec/opcode_table.json presented on its port, as the next turn. -/
def withFetchWord (s : State) (nbits w : Nat) : State :=
  { s with requests := tableRequest nbits w :: s.requests }

end State

end Sys2Proof.Machine
end

