-- ==== Sys2Proof/Machine/Lanes.lean ====
section
/-!
DEFINITION. Several block instances that share one output queue (60_exceptions.md R192). The spec proper is written for one lane
(`LANES` = 1, 00_scope.md R7); this is the system R192 describes around it.
-/

namespace Sys2Proof.Machine

/-- A system of lanes: each has the complete per-block state, and only the output queue is shared. The `fq` of a lane at rest is not
used. -/
structure Lanes where
  lanes : List State
  fq : List Frame
deriving DecidableEq, Repr

/-- One atomic step of lane `k`: its operation runs with the shared queue in place of its own, and what it leaves of the queue is the
shared queue again (R192). A number that is no lane changes nothing.

DESIGN CHOICE (log 16): R192 does not say what `RESET` of one lane does to the shared queue. Here it does what 40_block_control.md R108 says
of `FQ`: it empties the queue for all lanes, and touches nothing else of theirs. Nor does R192 say which lanes' frame ports reach the
shared queue, or whose `FQ_DEPTH` bounds it: here every lane's `POP` reaches it, and the bound is that of the lane that steps. -/
def Lanes.exec (sys : Lanes) (k : Nat) (i : Instr) : Lanes :=
  match sys.lanes[k]? with
  | none => sys
  | some s =>
    match Sys2Proof.Machine.exec i { s with fq := sys.fq } with
    | .next t => { lanes := sys.lanes.set k t, fq := t.fq }
    | .fault _ => sys
    | .refused _ => sys

end Sys2Proof.Machine
end

