-- ==== Sys2Proof/Machine/BlockFunction.lean ====
section
/-!
DEFINITION. The big-step view of a whole block (40_block_control.md R111): the source's decode job, steps 2b to 2e, as one function from the
sample codes of a block to its frames.
-/

namespace Sys2Proof.Machine

/-- `Envelope(a)`: every window of `W` consecutive samples, summed, scaled and divided (R111; 41_envelope.md R122). -/
def envelopeTrace (c : Config) (a : List Rat) : List Rat :=
  (List.range (a.length + 1 - c.w)).map
    (fun k => ((c.g : Rat) * ((a.drop k).take c.w).sum) / (c.w : Rat))

/-- The loop of `BlockBits` over the indices still to be examined, `m` the mean and `last` the last marked edge (R111). -/
def scanBits (c : Config) (e : List Rat) (m : Rat) : List Nat → Nat → List Bool
  | [], _ => []
  | k :: ks, last =>
    if max 0 (e.getD k 0 - m) > c.thr ∧ k - last > c.mingap then
      gapBits c.period (k - last) ++ scanBits c e m ks k
    else scanBits c e m ks last

/-- `BlockBits(e)` (R111). -/
def blockBits (c : Config) (e : List Rat) : List Bool :=
  if e.length = 0 then [] else scanBits c e (e.sum / (e.length : Rat)) (List.range e.length) 0

/-- `BlockFrames(bits)`: the frames a fresh accumulator makes of the bits (R111). -/
def blockFrames (bits : List Bool) : List Frame :=
  ((State.initial Config.default).accBits bits).fq

/-- `DecodeBlock(c)` (R111): from the sample codes of a block to the frames it delivers. -/
def decodeBlock (c : Config) (codes : List Nat) : List Frame :=
  blockFrames (blockBits c (envelopeTrace c (codes.map (sampleValue c))))

end Sys2Proof.Machine
end

