-- ==== Sys2Proof/Machine/Trace.lean ====
section
/-!
DEFINITION. Sequences of operations: the trace notation and the pseudo-operations of 30_encoding.md R88, R89, and what the consumer sees.
-/

namespace Sys2Proof.Machine

/-- Performs operations one after another; every step of the block answers a next state, and a run stops where one would not. -/
def execAll : List Instr → State → Host.Outcome State Fault Refusal
  | [], s => .next s
  | i :: is, s =>
    match exec i s with
    | .next t => execAll is t
    | .fault f => .fault f
    | .refused r => .refused r

/-- `SAMPLES n, c` (R89). -/
def samplesOps (n c : Nat) : List Instr := List.replicate n (.sample c)

/-- `BLOCK c0, ..., cn` (R89). -/
def blockOps (codes : List Nat) : List Instr := codes.map .sample ++ [.endBlock]

/-- The requests by which a producer sends operations. -/
def requestsOf (aw : Nat) (ops : List Instr) : List Request := ops.map (encode aw)

/-- The frame the last step returned to the consumer, if it was a `POP` that found one. -/
def State.returned (s : State) : List Frame :=
  match s.resp with
  | .frame (some f) => [f]
  | _ => []

/-- The frames that the `POP`s among the next `k` steps return, in order. -/
def popLog : Nat → State → List Frame
  | 0, _ => []
  | k + 1, s =>
    match step s with
    | .next t => t.returned ++ popLog k t
    | .fault _ => []
    | .refused _ => []

end Sys2Proof.Machine
end

