-- ==== Sys2Proof/Machine/Ports.lean ====
section
/-!
DEFINITION. The signals of the block (30_encoding.md R80) and what one clock edge does with the requests that meet at it
(60_exceptions.md R185).
-/

namespace Sys2Proof.Machine

namespace State

/-- `c_ready`: 1 exactly when the require line of the presented operation holds (R81). -/
def cReady (s : State) (word : Nat) : Bool :=
  match decodeCommand s.cfg.aw word with
  | .ok i => s.enabled i
  | .error _ => false

/-- `f_avail` (R80). -/
def fAvail (s : State) : Bool := decide (0 < s.fq.length)

/-- `f_len`: the length of the head frame, or 0 when the queue is empty (R80). -/
def fLen (s : State) : BitVec 7 := BitVec.ofNat 7 (s.fq.headD []).length

/-- `f_payload`: byte `i` of the head frame on bits `8i + 7 : 8i`, bytes at and above `f_len` 0 (R80). -/
def fPayload (s : State) : BitVec 1016 :=
  BitVec.ofNat 1016 ((s.fq.headD []).foldr (fun b rest => b.toNat + 256 * rest) 0)

/-- `r_data`: the register on the register port, combinational (R86). -/
def rData (s : State) (num : BitVec 3) : Word32 := s.readRegister num.toNat

end State

/-- The inputs of the block at one rising clock edge (R80), and whether the datapath takes a step at it. -/
structure Edge where
  rst : Bool
  cValid : Bool
  cWord : Nat
  fPop : Bool
  rNum : BitVec 3
  /-- Whether the datapath takes its step at this edge, where one is enabled. The spec leaves the pacing open: "hardware may take more
  cycles per step" (70_reset_and_hazards.md R216). So it is an input, and nothing is assumed of it (log 18). -/
  dStep : Bool
deriving DecidableEq, Repr

/-- The operations performed at an edge, in an order that gives the hardware's result (60_exceptions.md R185): reset alone when `rst` = 1; else
every request whose enabling condition holds in the state before the edge, `POP` before the datapath's step, as hardware that evaluates
the conditions before the edge behaves (the order is log 15). Whether the datapath steps at the edge at all is `Edge.dStep` (log 18). -/
def edgeOps (e : Edge) (s : State) : List Instr :=
  if e.rst then [.reset]
  else
    (match decodeCommand s.cfg.aw e.cWord with
      | .ok i => if e.cValid && s.enabled i then [i] else []
      | .error _ => []) ++
    (if e.fPop then [.pop] else []) ++
    (if e.dStep && decide (s.phase = .scan) && s.enabled s.due then [s.due] else [])

/-- What one rising clock edge does to the state (R80, R185). -/
def clockEdge (e : Edge) (s : State) : Host.Outcome State Fault Refusal := execAll (edgeOps e s) s

end Sys2Proof.Machine
end

