-- ==== Sys2Proof/Safety.lean ====
section
/-!
DEFINITION. What holds of every state a run reaches (10_state.md R20, R21, R26 to R29), and what a safe run is.
-/

namespace Sys2Proof.Safety

open Sys2Proof.Machine

/-- Samples, window and envelope agree: `CNT` within `NMAX`, `len(WIN) = min(CNT, W - 1)`, `len(ENV) = max(0, CNT - W + 1)`, all values
non-negative (10_state.md R20, R27, R28; 41_envelope.md R127). -/
abbrev StoresOk (s : State) : Prop :=
  Config.atMost s.cfg.nmax s.cnt = true ∧
  s.win.length = min s.cnt (s.cfg.w - 1) ∧
  s.env.length = s.cnt + 1 - s.cfg.w ∧
  (∀ a ∈ s.win, 0 ≤ a) ∧
  (∀ e ∈ s.env, 0 ≤ e)

/-- The scan registers are in range: `IDX` at most `len(ENV)`; `LAST` 0 or an index already scanned; a `false` bit pending only with its
`true` bit (10_state.md R20, R21, 42_slicer_gap.md R143). -/
abbrev ScanOk (s : State) : Prop :=
  s.idx ≤ s.env.length ∧
  (s.last = 0 ∨ s.last < s.idx) ∧
  (0 < s.pendf → s.pendt = true)

/-- The accumulator invariants (10_state.md R26 items 1 to 4; `EXPLEN` 0 to 127, R25). -/
abbrev AccumulatorOk (s : State) : Prop :=
  s.pbits ≤ 7 ∧
  s.pbyte.toNat < 2 ^ s.pbits ∧
  s.explen ≤ 127 ∧
  (s.explen = 0 → s.pay = []) ∧
  (0 < s.explen → s.pay.length < s.explen)

/-- The fresh accumulator (10_state.md R26 item 5). -/
abbrev FreshAccumulator (s : State) : Prop :=
  s.explen = 0 ∧ s.pay = [] ∧ s.pbyte = 0 ∧ s.pbits = 0

/-- In `FILL` the registers that `CloseBlock` writes hold their reset values (40_block_control.md R104). -/
abbrev FillOk (s : State) : Prop :=
  s.phase = .fill →
    s.idx = 0 ∧ s.last = 0 ∧ s.pendf = 0 ∧ s.pendt = false ∧
    s.explen = 0 ∧ s.pay = [] ∧ s.pbyte = 0 ∧ s.pbits = 0

/-- The queue holds at most `FQ_DEPTH` frames, each of 1 to 127 bytes (10_state.md R20, R29). -/
abbrev QueueOk (s : State) : Prop :=
  Config.atMost s.cfg.fqDepth s.fq.length = true ∧
  (∀ f ∈ s.fq, 1 ≤ f.length ∧ f.length ≤ Config.paymax)

/-- The bound on the pending `false` bits that sizes the register `PENDF` (10_state.md R21): every gap is measured inside the block, so at most
`floor((len(ENV) - 2) / PERIOD)`, and none below two envelope values. -/
abbrev PendingOk (s : State) : Prop :=
  s.pendf ≤ (s.env.length - 2) / s.cfg.period

/-- The invariant of the block: everything the spec says holds at rest. -/
abbrev BlockInv (s : State) : Prop :=
  s.cfg.legal = true ∧ StoresOk s ∧ ScanOk s ∧ PendingOk s ∧ AccumulatorOk s ∧ FillOk s ∧ QueueOk s

/-! The writers of the elements (10_state.md R21, R25, R27 to R29). -/

/-- The operations that deliver a sample. -/
abbrev TakesSample (i : Instr) : Prop := ∃ d, i = .sample d ∨ i = .sampleLast d

/-- The operations that close a block. -/
abbrev ClosesBlock (i : Instr) : Prop := i = .endBlock ∨ ∃ d, i = .sampleLast d

/-- The operations that clear every per-block element. -/
abbrev ClearsBlock (i : Instr) : Prop := i = .done ∨ i = .reset

/-- The `BIT` step: under its own name, or named by the wire byte that it completes (10_state.md R25; log 7). -/
abbrev IsBitStep (i : Instr) : Prop := i = .bit ∨ (∃ v, i = .payload v) ∨ ∃ len mark, i = .hdr len mark

/-- The thirteen elements of 10_state.md R20 and the configuration agree: two states that differ at most in the turns to come and in the last
response. -/
abbrev SameBlock (s t : State) : Prop :=
  { t with requests := s.requests, resp := s.resp } = s

/-- A safe run: every number of steps ends in a next state. -/
abbrev SafeRun (s : State) : Prop :=
  ∀ k, ∃ t, Host.Core.run Sys2Proof.core k s = .next t

end Sys2Proof.Safety
end

