-- ==== Sys2Proof/Certificates/Slice0/Obligations.lean ====
section
/-!
DEFINITION. The statements for the provers, one `def Obligations.<Name> : Prop` each. "Performed" and "held" are the two outcomes of
00_scope.md R10: a held operation answers a next state in which only the response (`held`) is new.
-/

open Sys2Proof Sys2Proof.Machine Sys2Proof.Safety

/-! ### The operations, one by one: what each does when performed, and when it is held -/

/-- `NOP` (40_block_control.md R101): every command word with `op = 00` is `NOP`; it is performed in every state and changes nothing. An edge
with `c_valid` = 0 is the same as one with a `NOP`, whatever `c_word` and the other inputs hold, and takes no step of the producer. -/
def Obligations.NopChangesNothing : Prop :=
  ∀ s : State,
    exec .nop s = .next { s with resp := .performed } ∧
    (∀ x < 2 ^ s.cfg.aw, decode s.context ⟨.command, x⟩ = .ok .nop) ∧
    (∀ (e : Edge) (x : Nat), e.cValid = false → x < 2 ^ s.cfg.aw →
      ∃ t u, clockEdge e s = .next t ∧ clockEdge { e with cValid := true, cWord := x } s = .next u ∧
        { t with resp := u.resp } = u) ∧
    (∀ (e : Edge) (i : Instr), e.cValid = false → i ∈ edgeOps e s → i = .reset ∨ i = .pop ∨ i ∈ [Instr.slice, .bit, .done])

/-- `SAMPLE d` (40_block_control.md R102 with `EnvPush` of 41_envelope.md R121): the sample enters the window, and a full window gives one
envelope value and loses its oldest sample; held in `SCAN` and when `CNT = NMAX`. -/
def Obligations.SampleEntersWindow : Prop :=
  ∀ (s : State) (d : Nat),
    (s.phase = .fill → (∀ n, s.cfg.nmax = some n → s.cnt < n) →
      exec (.sample d) s =
        .next
          (if s.win.length + 1 = s.cfg.w then
            { s with
              win := (s.win ++ [(d : Rat) / 2 ^ s.cfg.af]).tail
              env := s.env ++ [((s.win ++ [(d : Rat) / 2 ^ s.cfg.af]).sum * s.cfg.g) / s.cfg.w]
              cnt := s.cnt + 1
              resp := .performed }
          else
            { s with
              win := s.win ++ [(d : Rat) / 2 ^ s.cfg.af]
              cnt := s.cnt + 1
              resp := .performed })) ∧
    ((s.phase = .scan ∨ ∃ n, s.cfg.nmax = some n ∧ n ≤ s.cnt) →
      exec (.sample d) s = .next { s with resp := .held }) ∧
    (d < 2 ^ s.cfg.aw → decode s.context ⟨.command, 2 ^ s.cfg.aw + d⟩ = .ok (.sample d))

/-- `SAMPLE_LAST d` (40_block_control.md R103): exactly `SAMPLE d` followed by `END`, in one step, and held when `SAMPLE d` would be. -/
def Obligations.SampleLastIsSampleThenEnd : Prop :=
  ∀ (s : State) (d : Nat),
    (s.phase = .fill → (∀ n, s.cfg.nmax = some n → s.cnt < n) →
      let win := s.win ++ [(d : Rat) / 2 ^ s.cfg.af]
      ∃ t u, exec (.sample d) s = .next t ∧ t.resp = .performed ∧
        exec .endBlock t = .next u ∧ u.resp = .performed ∧
        exec (.sampleLast d) s = .next u ∧
        u = { s with
              win := (if win.length = s.cfg.w then win.tail else win)
              env := (if win.length = s.cfg.w then s.env ++ [(win.sum * s.cfg.g) / s.cfg.w] else s.env)
              cnt := s.cnt + 1, phase := .scan, idx := 0, last := 0, pendf := 0, pendt := false
              explen := 0, pay := [], pbyte := 0, pbits := 0, resp := .performed }) ∧
    ((s.phase = .scan ∨ ∃ n, s.cfg.nmax = some n ∧ n ≤ s.cnt) →
      exec (.sampleLast d) s = .next { s with resp := .held }) ∧
    (d < 2 ^ s.cfg.aw → decode s.context ⟨.command, 2 * 2 ^ s.cfg.aw + d⟩ = .ok (.sampleLast d))

/-- `END` (40_block_control.md R104): the phase becomes `SCAN` with a fresh scan and a fresh accumulator; `CNT`, `WIN`, `ENV`, `FQ` are not
touched; where the per-block registers hold their `FILL` values only the phase changes; held in `SCAN`. -/
def Obligations.EndClosesBlock : Prop :=
  ∀ s : State,
    (s.phase = .fill →
      exec .endBlock s =
        .next
          { s with
            phase := .scan, idx := 0, last := 0, pendf := 0, pendt := false
            explen := 0, pay := [], pbyte := 0, pbits := 0, resp := .performed }) ∧
    (s.phase = .fill → FillOk s → exec .endBlock s = .next { s with phase := .scan, resp := .performed }) ∧
    (s.phase = .scan → exec .endBlock s = .next { s with resp := .held }) ∧
    (∀ x < 2 ^ s.cfg.aw, decode s.context ⟨.command, 3 * 2 ^ s.cfg.aw + x⟩ = .ok .endBlock)

/-- `DONE` (40_block_control.md R105, R109): at the end of a scan every per-block element takes its reset value, the phase becomes `FILL`, the
output queue is kept; held in every other state. -/
def Obligations.DoneDiscardsBlock : Prop :=
  ∀ s : State,
    (s.phase = .scan → s.idx = s.env.length → s.pendf = 0 → s.pendt = false →
      exec .done s =
        .next
          { s with
            phase := .fill, cnt := 0, win := [], env := [], idx := 0, last := 0, pendf := 0, pendt := false
            explen := 0, pay := [], pbyte := 0, pbits := 0, resp := .performed }) ∧
    ((s.phase = .fill ∨ s.idx ≠ s.env.length ∨ 0 < s.pendf ∨ s.pendt = true) →
      exec .done s = .next { s with resp := .held })

/-- `POP` (40_block_control.md R106): returns and removes the oldest frame, or answers that there is none; never held. -/
def Obligations.PopReturnsOldestFrame : Prop :=
  ∀ s : State,
    (∀ f rest, s.fq = f :: rest → exec .pop s = .next { s with fq := rest, resp := .frame (some f) }) ∧
    (s.fq = [] → exec .pop s = .next { s with resp := .frame none }) ∧
    decode s.context ⟨.frame, 1⟩ = .ok .pop

/-- `RDREG n` (40_block_control.md R107, 10_state.md R30): the configuration on 0 to 5, `COUNT` on 7, 0 above 7; register 6 is
`Obligations.StatusPacksFields`; never held, and nothing but the response changes. -/
def Obligations.RdregReadsRegisters : Prop :=
  ∀ s : State,
    (∀ n, ∃ v, exec (.rdreg n) s = .next { s with resp := .data v }) ∧
    (∀ n, decode s.context ⟨.register, n⟩ = .ok (.rdreg n)) ∧
    exec (.rdreg 0) s = .next { s with resp := .data (BitVec.ofNat 32 s.cfg.w) } ∧
    exec (.rdreg 1) s = .next { s with resp := .data (BitVec.ofNat 32 s.cfg.g) } ∧
    exec (.rdreg 2) s = .next { s with resp := .data (BitVec.ofNat 32 s.cfg.thrNum) } ∧
    exec (.rdreg 3) s = .next { s with resp := .data (BitVec.ofNat 32 s.cfg.thrDen) } ∧
    exec (.rdreg 4) s = .next { s with resp := .data (BitVec.ofNat 32 s.cfg.mingap) } ∧
    exec (.rdreg 5) s = .next { s with resp := .data (BitVec.ofNat 32 s.cfg.period) } ∧
    (s.cnt < 2 ^ 32 → exec (.rdreg 7) s = .next { s with resp := .data (BitVec.ofNat 32 s.cnt) }) ∧
    (∀ n, 7 < n → exec (.rdreg n) s = .next { s with resp := .data 0 })

/-- `STATUS` (10_state.md R31): with the accumulator in its ranges (R26), register 6 reads the eight fields at their bit positions and 0 in the
reserved bits. -/
def Obligations.StatusPacksFields : Prop :=
  ∀ s : State, AccumulatorOk s →
    ∃ v : Word32, exec (.rdreg 6) s = .next { s with resp := .data v } ∧
      v.toNat =
        (if s.phase = .scan then 1 else 0) + (if s.fq = [] then 0 else 2) +
        (if s.cfg.fqDepth = some s.fq.length then 4 else 0) + (if s.cfg.nmax = some s.cnt then 8 else 0) +
        (if s.explen = 0 then 16 else 0) + 2 ^ 5 * s.pbits + 2 ^ 8 * s.explen + 2 ^ 15 * s.pay.length

/-- `RESET` (40_block_control.md R108, 10_state.md R34): performed in every state; every element takes its reset value and the configuration is
kept; the pin's word 1 asks for it. -/
def Obligations.ResetRestoresEveryElement : Prop :=
  ∀ s : State,
    exec .reset s =
      .next
        { cfg := s.cfg, requests := s.requests, resp := .performed
          phase := .fill, cnt := 0, win := [], env := [], idx := 0, last := 0, pendf := 0, pendt := false
          explen := 0, pay := [], pbyte := 0, pbits := 0, fq := [] } ∧
    decode s.context ⟨.resetPin, 1⟩ = .ok .reset

/-- `SLICE` (42_slicer_gap.md R141 to R144): one index is examined; above the threshold and farther than `MINGAP` from the last marked edge it is
marked and its gap becomes pending bits, else only `IDX` advances; held with a bit pending, at the end of the trace, and in `FILL`. -/
def Obligations.SliceExaminesOneIndex : Prop :=
  ∀ s : State,
    (s.phase = .scan → s.idx < s.env.length → s.pendf = 0 → s.pendt = false →
      exec .slice s =
        .next
          (if max 0 (s.env.getD s.idx 0 - s.env.sum / s.env.length) > (s.cfg.thrNum : Rat) / s.cfg.thrDen ∧
              s.idx - s.last > s.cfg.mingap then
            { s with
              pendf := (s.idx - s.last - 1) / s.cfg.period, pendt := true, last := s.idx, idx := s.idx + 1
              resp := .performed }
          else { s with idx := s.idx + 1, resp := .performed })) ∧
    ((s.phase = .fill ∨ s.env.length ≤ s.idx ∨ 0 < s.pendf ∨ s.pendt = true) →
      exec .slice s = .next { s with resp := .held })

/-- `BIT` before the eighth bit of a byte (42_slicer_gap.md R147, 43_deserializer_frame.md R161): the pending `false` bits go first, then the
`true`; the bit lands on bit `PBITS` of `PBYTE` and nothing else changes. -/
def Obligations.BitEntersPartialByte : Prop :=
  ∀ s : State, s.phase = .scan → (∀ n, s.cfg.fqDepth = some n → s.fq.length < n) → s.pbits < 7 →
    s.pbyte.toNat < 2 ^ s.pbits →
    (0 < s.pendf →
      exec .bit s = .next { s with pendf := s.pendf - 1, pbits := s.pbits + 1, resp := .performed }) ∧
    (s.pendf = 0 → s.pendt = true →
      exec .bit s =
        .next
          { s with
            pendt := false, pbyte := BitVec.ofNat 8 (s.pbyte.toNat + 2 ^ s.pbits), pbits := s.pbits + 1
            resp := .performed })

/-- `BIT` with the eighth bit of a byte (42_slicer_gap.md R147, 43_deserializer_frame.md R161 to R163): the completed byte `v` is taken in the
same step, as a header when one is awaited, else as payload, and the payload byte that makes the frame complete puts the frame, without
its header, into the queue. -/
def Obligations.BitCompletesByte : Prop :=
  ∀ s : State, s.phase = .scan → (∀ n, s.cfg.fqDepth = some n → s.fq.length < n) → s.pbits = 7 →
    s.pbyte.toNat < 2 ^ 7 → (0 < s.pendf ∨ s.pendt = true) →
    ∃ (v : Byte) (t : State),
      v.toNat = s.pbyte.toNat + (if 0 < s.pendf then 0 else 128) ∧
      t = { s with
            pendf := s.pendf - 1, pendt := (if 0 < s.pendf then s.pendt else false)
            pbyte := 0, pbits := 0, resp := .performed } ∧
      (s.explen = 0 → exec .bit s = .next { t with explen := v.toNat / 2 }) ∧
      (0 < s.explen → s.pay.length + 1 ≠ s.explen → exec .bit s = .next { t with pay := s.pay ++ [v] }) ∧
      (0 < s.explen → s.pay.length + 1 = s.explen →
        exec .bit s = .next { t with fq := s.fq ++ [s.pay ++ [v]], pay := [], explen := 0 })

/-- When `BIT` is held (42_slicer_gap.md R147, 60_exceptions.md R181): in `FILL`, with no bit pending, and with the output queue full, whether or
not the bit would complete a frame. -/
def Obligations.BitHeldWithoutRoom : Prop :=
  ∀ s : State,
    (s.phase = .fill ∨ (s.pendf = 0 ∧ s.pendt = false) ∨ ∃ n, s.cfg.fqDepth = some n ∧ n ≤ s.fq.length) →
      exec .bit s = .next { s with resp := .held }

/-- `HDR` (30_encoding.md R71, R73; 43_deserializer_frame.md R162, R164): the `BIT` step that completes a byte while a header is awaited puts the
byte's length field into `EXPLEN`; the marker takes no part. The operation is that `BIT` step (log 7). -/
def Obligations.HdrSetsExpectedLength : Prop :=
  ∀ (s : State) (len : BitVec 7) (mark : Bool), s.phase = .scan →
    (∀ n, s.cfg.fqDepth = some n → s.fq.length < n) → (0 < s.pendf ∨ s.pendt = true) →
    s.pbits = 7 → s.pbyte.toNat < 2 ^ 7 → s.explen = 0 →
    s.pbyte.toNat + (if 0 < s.pendf then 0 else 128) = 2 * len.toNat + mark.toNat →
    exec (.hdr len mark) s =
      .next
        { s with
          pendf := s.pendf - 1, pendt := (if 0 < s.pendf then s.pendt else false)
          pbyte := 0, pbits := 0, explen := len.toNat, resp := .performed } ∧
    exec (.hdr len mark) s = exec .bit s ∧
    decode s.context ⟨.wireByte, 2 * len.toNat + mark.toNat⟩ = .ok (.hdr len mark)

/-- `PAYLOAD` (30_encoding.md R72, 43_deserializer_frame.md R162, R163): the `BIT` step that completes a byte inside a frame stores the byte as it
is, and the byte that makes the payload complete emits the frame. The operation is that `BIT` step (log 7). -/
def Obligations.PayloadIsCollected : Prop :=
  ∀ (s : State) (v : Byte), s.phase = .scan → (∀ n, s.cfg.fqDepth = some n → s.fq.length < n) →
    (0 < s.pendf ∨ s.pendt = true) → s.pbits = 7 → s.pbyte.toNat < 2 ^ 7 → 0 < s.explen →
    s.pbyte.toNat + (if 0 < s.pendf then 0 else 128) = v.toNat →
    exec (.payload v) s =
      .next
        { s with
          pendf := s.pendf - 1, pendt := (if 0 < s.pendf then s.pendt else false)
          pbyte := 0, pbits := 0
          fq := (if s.pay.length + 1 = s.explen then s.fq ++ [s.pay ++ [v]] else s.fq)
          pay := (if s.pay.length + 1 = s.explen then [] else s.pay ++ [v])
          explen := (if s.pay.length + 1 = s.explen then 0 else s.explen)
          resp := .performed } ∧
    exec (.payload v) s = exec .bit s ∧
    decode s.context ⟨.wireByte, v.toNat⟩ = .ok (.payload v)

/-- A wire byte reaches the accumulator in `BIT` steps alone (10_state.md R25, 20_memory.md R55, 30_encoding.md R72). From a byte boundary its
eight bits, bit 0 first, do what `AccByte` does with the byte; the `BIT` step that completes a byte is the operation of exactly that
byte, in the role that `EXPLEN` gives it; and in every other state, or for another byte or role, the operation is held (that such a
step has the name of its byte is the model's choice, log 7). -/
def Obligations.WireByteActsByItsBits : Prop :=
  ∀ (s : State) (len : BitVec 7) (mark : Bool) (v : Byte),
    (s.pbits = 0 → s.pbyte = 0 →
      s.accBits (byteBits v) =
        if s.explen = 0 then { s with explen := v.toNat / 2 }
        else if s.pay.length + 1 = s.explen then { s with fq := s.fq ++ [s.pay ++ [v]], pay := [], explen := 0 }
        else { s with pay := s.pay ++ [v] }) ∧
    (s.enabled .bit = true → s.pbits = 7 → s.explen = 0 →
      ∃ l m, s.enabled (.hdr l m) = true ∧ exec (.hdr l m) s = exec .bit s ∧
        ∀ l' m', s.enabled (.hdr l' m') = true → l' = l ∧ m' = m) ∧
    (s.enabled .bit = true → s.pbits = 7 → 0 < s.explen →
      ∃ b, s.enabled (.payload b) = true ∧ exec (.payload b) s = exec .bit s ∧
        ∀ b', s.enabled (.payload b') = true → b' = b) ∧
    ((s.enabled .bit = false ∨ s.pbits ≠ 7 ∨ 0 < s.explen) → exec (.hdr len mark) s = .next { s with resp := .held }) ∧
    ((s.enabled .bit = false ∨ s.pbits ≠ 7 ∨ s.explen = 0) → exec (.payload v) s = .next { s with resp := .held })

/-- `GAP` (30_encoding.md R75, R77; 42_slicer_gap.md R145, R146): a gap above `MINGAP` returns its `floor((gap - 1) / PERIOD)` `false` bits and one
`true`; a smaller one is ignored. Nothing but the response changes. (That a gap can be given from outside, in every state, is the
model's choice, log 8.) -/
def Obligations.GapReturnsItsBits : Prop :=
  ∀ (s : State) (g : Nat), s.cfg.legal = true →
    (s.cfg.mingap < g →
      exec (.gap g) s =
        .next { s with resp := .bits (List.replicate ((g - 1) / s.cfg.period) false ++ [true]) }) ∧
    (g ≤ s.cfg.mingap → exec (.gap g) s = .next { s with resp := .bits [] }) ∧
    decode s.context ⟨.wireGap, g⟩ = .ok (.gap g)

/-! ### The machine as a whole -/

/-- No operation fails (60_exceptions.md R180), and an operation that is not performed changes nothing (00_scope.md R10). -/
def Obligations.OperationsNeverFail : Prop :=
  ∀ (i : Instr) (s : State),
    ∃ t, exec i s = .next t ∧
      (t.resp = .held ↔ s.enabled i = false) ∧ (t.resp = .held → t = { s with resp := .held })

/-- A step runs the operation that the waiting request's word decodes to, in the state without that request. -/
def Obligations.StepRunsDecodedOperation : Prop :=
  ∀ (s : State) (r : Request) (rest : List Request) (i : Instr), s.requests = r :: rest →
    decode s.context r = .ok i → i.wellFormed s.cfg = true → step s = exec i { s with requests := rest }

/-- The datapath's turn (10_state.md R22): with no request waiting, `BIT` while a bit is pending, else `SLICE` while an index is left, else `DONE`;
in `FILL` it waits. -/
def Obligations.DatapathStepFollowsSequencer : Prop :=
  ∀ s : State, s.requests = [] →
    (s.phase = .fill → step s = .next { s with resp := .performed }) ∧
    (s.phase = .scan → (0 < s.pendf ∨ s.pendt = true) → step s = exec .bit s) ∧
    (s.phase = .scan → s.pendf = 0 → s.pendt = false → s.idx < s.env.length → step s = exec .slice s) ∧
    (s.phase = .scan → s.pendf = 0 → s.pendt = false → s.env.length ≤ s.idx → step s = exec .done s)

/-- The reset state (10_state.md R34): every element at its tabulated value and the eight registers read as tabulated (95_test_vectors.md BC1; the
configuration of `State.reset` is the default one, with `NMAX` and `FQ_DEPTH` unbounded: log 2). -/
def Obligations.ResetStateHasTabulatedValues : Prop :=
  State.reset.phase = .fill ∧ State.reset.cnt = 0 ∧ State.reset.win = [] ∧ State.reset.env = [] ∧
  State.reset.idx = 0 ∧ State.reset.last = 0 ∧ State.reset.pendf = 0 ∧ State.reset.pendt = false ∧
  State.reset.explen = 0 ∧ State.reset.pay = [] ∧ State.reset.pbyte = 0 ∧ State.reset.pbits = 0 ∧
  State.reset.fq = [] ∧
  (List.range 9).map State.reset.readRegister = [0x3E8, 0x12C, 0x1, 0x14, 0xA, 0xCE4, 0x10, 0, 0]

/-- Illegal configurations are refused when an instance is built (00_scope.md R6); every other one, with `NMAX` and `FQ_DEPTH` in the ranges of
R7, is built, and the instance starts in the reset state of its configuration with the invariant. -/
def Obligations.IllegalConfigurationIsNotBuilt : Prop :=
  ∀ c : Config,
    ((c.w = 0 ∨ c.thrDen = 0 ∨ c.period = 0 ∨ 2 ^ 32 ≤ c.w ∨ 2 ^ 32 ≤ c.g ∨ 2 ^ 32 ≤ c.thrNum ∨
        2 ^ 32 ≤ c.thrDen ∨ 2 ^ 32 ≤ c.mingap ∨ 2 ^ 32 ≤ c.period) → State.build c = none) ∧
    (1 ≤ c.w → 1 ≤ c.thrDen → 1 ≤ c.period → c.w < 2 ^ 32 → c.g < 2 ^ 32 → c.thrNum < 2 ^ 32 →
      c.thrDen < 2 ^ 32 → c.mingap < 2 ^ 32 → c.period < 2 ^ 32 →
      (∀ n, c.nmax = some n → 1 ≤ n ∧ n < 2 ^ 32) → (∀ n, c.fqDepth = some n → 1 ≤ n) →
      ∃ s, State.build c = some s ∧ (∃ t, exec .reset s = .next t ∧ SameBlock s t)) ∧
    (∀ s, State.build c = some s → s.cfg = c ∧ s.phase = .fill ∧ s.fq = [] ∧ BlockInv s)

/-- The invariant holds at reset. -/
def Obligations.ResetStateIsInvariant : Prop := BlockInv State.reset

/-- Every step keeps the invariant (10_state.md R20, R25 to R29; 40_block_control.md R104): the stores have their lengths, the registers their
ranges, the pending count its bound (R21), the accumulator its four properties, the queue its capacity and its frames of 1 to 127 bytes, in every configuration and for
every order of the agents' turns. -/
def Obligations.StepKeepsInvariant : Prop :=
  ∀ s t : State, BlockInv s → step s = .next t → BlockInv t

/-- A run whose requests are all words of their ports never stops (60_exceptions.md R180, R182). -/
def Obligations.RunsNeverStop : Prop :=
  ∀ s : State,
    (∀ r ∈ s.requests,
      (r.port = .command → r.word < 4 * 2 ^ s.cfg.aw) ∧ (r.port = .frame → r.word = 1) ∧
      (r.port = .resetPin → r.word = 1) ∧ (r.port = .wireByte → r.word < 256)) →
    SafeRun s

/-- What each element can be changed by (00_scope.md R5; 10_state.md R21, R23, R25, R27, R28, R29): the configuration and the turns to come by
nothing; every other element only by the operations its rule names. The `BIT` step counts under its own name and under that of the wire
byte it completes, which is the same step (log 7). -/
def Obligations.ElementsChangeOnlyByTheirWriters : Prop :=
  ∀ (i : Instr) (s t : State), exec i s = .next t →
    t.cfg = s.cfg ∧ t.requests = s.requests ∧
    (s.phase = .fill → t.phase = .scan → ClosesBlock i) ∧
    (s.phase = .scan → t.phase = .fill → ClearsBlock i) ∧
    (t.cnt ≠ s.cnt → TakesSample i ∨ ClearsBlock i) ∧
    (t.win ≠ s.win → TakesSample i ∨ ClearsBlock i) ∧
    (t.env ≠ s.env → TakesSample i ∨ ClearsBlock i) ∧
    (t.idx ≠ s.idx → i = .slice ∨ ClosesBlock i ∨ ClearsBlock i) ∧
    (t.last ≠ s.last → i = .slice ∨ ClosesBlock i ∨ ClearsBlock i) ∧
    (t.pendf ≠ s.pendf → i = .slice ∨ IsBitStep i ∨ ClosesBlock i ∨ ClearsBlock i) ∧
    (t.pendt ≠ s.pendt → i = .slice ∨ IsBitStep i ∨ ClosesBlock i ∨ ClearsBlock i) ∧
    (t.explen ≠ s.explen → IsBitStep i ∨ ClosesBlock i ∨ ClearsBlock i) ∧
    (t.pay ≠ s.pay → IsBitStep i ∨ ClosesBlock i ∨ ClearsBlock i) ∧
    (t.pbyte ≠ s.pbyte → IsBitStep i ∨ ClosesBlock i ∨ ClearsBlock i) ∧
    (t.pbits ≠ s.pbits → IsBitStep i ∨ ClosesBlock i ∨ ClearsBlock i) ∧
    (t.fq = s.fq ∨ (i = .pop ∧ t.fq = s.fq.tail) ∨ (i = .reset ∧ t.fq = []) ∨
      (IsBitStep i ∧ ∃ f, t.fq = s.fq ++ [f]))

/-- Inside a block `IDX` advances by exactly 1, by `SLICE` alone, and the envelope it scans does not change (10_state.md R22, 41_envelope.md R124). -/
def Obligations.ScanAdvancesByOneIndex : Prop :=
  ∀ (i : Instr) (s t : State), BlockInv s → s.phase = .scan → exec i s = .next t → t.phase = .scan →
    t.env = s.env ∧ t.idx ≤ t.env.length ∧
    (t.idx = s.idx ∨ (i = .slice ∧ t.idx = s.idx + 1 ∧ s.bitPending = false)) ∧
    (s.bitPending = true → t.idx = s.idx ∧ t.last = s.last)

/-- The datapath is deterministic (40_block_control.md R110): in a scan at most one of its steps can be performed, and none can exactly when a bit is
pending and the queue is full. -/
def Obligations.OneDatapathStepIsEnabled : Prop :=
  ∀ s : State, BlockInv s → s.phase = .scan →
    (∀ i j, i ∈ [Instr.slice, .bit, .done] → j ∈ [Instr.slice, .bit, .done] →
      s.enabled i = true → s.enabled j = true → i = j) ∧
    ((∀ i ∈ [Instr.slice, .bit, .done], s.enabled i = false) ↔
      (0 < s.pendf ∨ s.pendt = true) ∧ s.cfg.fqDepth = some s.fq.length) ∧
    (∀ i ∈ [Instr.slice, .bit, .done], s.enabled i = true → s.due = i)

/-- Back-pressure (60_exceptions.md R181, 70_reset_and_hazards.md R212): while a bit is pending and the queue is full nothing but `POP` and `RESET`
changes the block, and one `POP` lifts the hold. -/
def Obligations.FullQueueHoldsTheScan : Prop :=
  ∀ s : State, s.phase = .scan → (0 < s.pendf ∨ s.pendt = true) → s.fq ≠ [] →
    s.cfg.fqDepth = some s.fq.length →
    (∀ i t, exec i s = .next t → i ≠ .pop → i ≠ .reset → { t with resp := s.resp } = s) ∧
    (∀ t, exec .pop s = .next t → t.resp = .frame s.fq.head? ∧ t.enabled .bit = true)

/-- Nothing is carried from block to block (20_memory.md R57, R63; 43_deserializer_frame.md R167; 70_reset_and_hazards.md R204): after `DONE`, two
blocks that agree in configuration and queue cannot be told apart, whatever they held. -/
def Obligations.NothingSurvivesABlock : Prop :=
  ∀ s₁ s₂ t₁ t₂ : State, s₁.cfg = s₂.cfg → s₁.requests = s₂.requests → s₁.fq = s₂.fq →
    s₁.enabled .done = true → s₂.enabled .done = true →
    exec .done s₁ = .next t₁ → exec .done s₂ = .next t₂ →
    t₁ = t₂ ∧ t₁ = { State.initial s₁.cfg with requests := s₁.requests, fq := s₁.fq, resp := .performed }

/-- An empty or short block (41_envelope.md R126, 40_block_control.md R104): closing a block of fewer than `W` samples leaves nothing to slice; `DONE`
follows at once and no frame appears. -/
def Obligations.ShortBlockYieldsNothing : Prop :=
  ∀ s : State, BlockInv s → s.phase = .fill → s.cnt < s.cfg.w →
    ∃ t u, exec .endBlock s = .next t ∧ t.env = [] ∧ t.enabled .slice = false ∧ t.enabled .bit = false ∧
      exec .done t = .next u ∧ u.resp = .performed ∧ u.phase = .fill ∧ u.cnt = 0 ∧ u.fq = s.fq

/-- The capacities (00_scope.md R7, 10_state.md R21): a finite `NMAX` bounds the envelope memory by `LMAX` and the pending count by
`floor((LMAX - 2) / PERIOD)`, and so after every operation. -/
def Obligations.CapacitiesSuffice : Prop :=
  ∀ (s : State) (n : Nat), BlockInv s → s.cfg.nmax = some n →
    s.env.length ≤ (if s.cfg.w ≤ n then n - s.cfg.w + 1 else 0) ∧
    (s.cfg.w ≤ n → 2 ≤ n - s.cfg.w + 1 → s.pendf ≤ (n - s.cfg.w + 1 - 2) / s.cfg.period) ∧
    (∀ i t, exec i s = .next t →
      t.env.length ≤ (if s.cfg.w ≤ n then n - s.cfg.w + 1 else 0) ∧
      (s.cfg.w ≤ n → 2 ≤ n - s.cfg.w + 1 → t.pendf ≤ (n - s.cfg.w + 1 - 2) / s.cfg.period))

/-! ### Encodings -/

/-- The command words of 95_test_vectors.md EN1 to EN7 and one word of each other port and of each wire byte, written out. -/
def Obligations.WrittenOutWordsDecode : Prop :=
  decode Context.fresh ⟨.command, 0b010000000000001000⟩ = .ok (.sample 8) ∧
  decode Context.fresh ⟨.command, 0x12000⟩ = .ok (.sample 8192) ∧
  decode Context.fresh ⟨.command, 0x18000⟩ = .ok (.sample 32768) ∧
  decode Context.fresh ⟨.command, 0x1FFFF⟩ = .ok (.sample 65535) ∧
  decode Context.fresh ⟨.command, 0x20000⟩ = .ok (.sampleLast 0) ∧
  decode Context.fresh ⟨.command, 0x30000⟩ = .ok .endBlock ∧
  decode Context.fresh ⟨.command, 0x3ABCD⟩ = .ok .endBlock ∧
  decode Context.fresh ⟨.command, 0x00000⟩ = .ok .nop ∧
  decode Context.fresh ⟨.command, 0x0FFFF⟩ = .ok .nop ∧
  decode Context.fresh ⟨.frame, 1⟩ = .ok .pop ∧
  decode Context.fresh ⟨.register, 0b110⟩ = .ok (.rdreg 6) ∧
  decode Context.fresh ⟨.resetPin, 1⟩ = .ok .reset ∧
  decode Context.fresh ⟨.wireByte, 0b00000110⟩ = .ok (.hdr 3 false) ∧
  decode { Context.fresh with awaiting := false } ⟨.wireByte, 0xA5⟩ = .ok (.payload 0xA5)

/-- Decode and encode agree: in every context that admits it, the request of every well-formed operation decodes to that operation, at every
value of every operand and for every width `AW` of a sample code. -/
def Obligations.DecodeOfEncodeIsIdentity : Prop :=
  ∀ (c : Config) (ctx : Context) (i : Instr), ctx.aw = c.aw → i.wellFormed c = true → ctx.admits i = true →
    decode ctx (encode c.aw i) = .ok i

/-- The other direction: a word that decodes is the word of what it decodes to, or, for `NOP` and `END`, a command word that agrees with it in
port and `op` and so differs at most in the ignored bits (30_encoding.md R83). A decoded sample code has `AW` bits; no command word of
the port's width is rejected; the datapath's turn, which has no word, decodes to the step that is due. -/
def Obligations.EncodeOfDecodeIsIdentity : Prop :=
  ∀ (ctx : Context) (r : Request),
    (∀ i, decode ctx r = .ok i → r.port ≠ .datapath →
      encode ctx.aw i = r ∨
        ((i = .nop ∨ i = .endBlock) ∧ r.port = .command ∧
          r.word / 2 ^ ctx.aw = (encode ctx.aw i).word / 2 ^ ctx.aw)) ∧
    (∀ d, decode ctx r = .ok (.sample d) ∨ decode ctx r = .ok (.sampleLast d) → r.port ≠ .datapath → d < 2 ^ ctx.aw) ∧
    (r.port = .command → r.word < 4 * 2 ^ ctx.aw → ∃ i, decode ctx r = .ok i) ∧
    (r.port = .datapath → decode ctx r = .ok ctx.due)

/-! ### The envelope detector -/

/-- The closed form of the envelope (41_envelope.md R122, 10_state.md R27): after the `N` samples of a block `len(ENV) = N - W + 1` (none below `W`),
each value is `G / W` times its window's sum, and `WIN` keeps the last `W - 1` samples. -/
def Obligations.EnvelopeHasClosedForm : Prop :=
  ∀ (s : State) (codes : List Nat), s.cfg.legal = true → s.phase = .fill → s.cnt = 0 → s.win = [] → s.env = [] →
    (∀ n, s.cfg.nmax = some n → codes.length ≤ n) →
    ∃ t, execAll (codes.map .sample) s = .next t ∧ t.phase = .fill ∧ t.cnt = codes.length ∧ t.fq = s.fq ∧
      t.env.length = codes.length + 1 - s.cfg.w ∧
      (∀ k < codes.length + 1 - s.cfg.w,
        t.env.getD k 0 =
          (s.cfg.g : Rat) * ((List.range s.cfg.w).map (fun j => (codes.getD (k + j) 0 : Rat) / 2 ^ s.cfg.af)).sum
            / s.cfg.w) ∧
      t.win =
        (codes.drop (codes.length - min codes.length (s.cfg.w - 1))).map (fun d => (d : Rat) / 2 ^ s.cfg.af)

/-- The running-sum form (41_envelope.md R123): updating a sum by the entering and the leaving sample gives exactly the block's envelope. -/
def Obligations.RunningSumIsEquivalent : Prop :=
  ∀ (s : State) (codes : List Nat), s.cfg.legal = true → s.win = [] → s.env = [] →
    let t := codes.foldl State.takeSample s
    let r := (codes.map (sampleValue s.cfg)).foldl (RunningSum.push s.cfg) RunningSum.start
    r.env = t.env ∧ r.win = t.win ∧ r.sum = t.win.sum

/-- The all-integer slicer test (41_envelope.md R129): for an envelope of integer window sums, the exact rational test of the slicer is the integer
inequality `G * THR_DEN * (L * S[k] - T) > THR_NUM * W * 2^AF * L`. -/
def Obligations.IntegerTestIsRationalTest : Prop :=
  ∀ (c : Config) (sums : List Nat) (k : Nat), c.legal = true → k < sums.length →
    (max 0 ((envelopeOfSums c sums).getD k 0 - (envelopeOfSums c sums).sum / sums.length)
        > (c.thrNum : Rat) / c.thrDen ↔
      (c.g : Int) * c.thrDen * (sums.length * (sums.getD k 0 : Nat) - (sums.sum : Nat))
        > (c.thrNum : Int) * c.w * 2 ^ c.af * sums.length) ∧
    isCandidate c (envelopeOfSums c sums) k = integerCandidate c sums k

/-- The rectifier's laws (41_envelope.md R125, 42_slicer_gap.md R149): a value at or below the mean of the whole trace is rectified to 0, and a
value above it to its distance from the mean; some value of every non-empty trace is rectified to 0; and a constant envelope has no
edge, whatever the threshold. -/
def Obligations.RectifierClampsAtTheMean : Prop :=
  (∀ (env : List Rat) (k : Nat), k < env.length →
    (env.getD k 0 ≤ env.sum / env.length → rect env k = 0) ∧
    (env.sum / env.length < env.getD k 0 → rect env k = env.getD k 0 - env.sum / env.length)) ∧
  (∀ env : List Rat, env ≠ [] → ∃ k < env.length, rect env k = 0) ∧
  (∀ (c : Config) (n k : Nat) (e : Rat), c.legal = true → k < n → isCandidate c (List.replicate n e) k = false)

/-! ### The gap decoder -/

/-- The source's loop and the closed form (42_slicer_gap.md R145, R146): `GapBits(gap)` is `floor((gap - 1) / PERIOD)` `false` bits and one `true`. -/
def Obligations.GapLoopHasClosedForm : Prop :=
  ∀ period gap : Nat, 1 ≤ period → 1 ≤ gap →
    gapBits period gap = List.replicate ((gap - 1) / period) false ++ [true]

/-- The one-sided tolerance (30_encoding.md R75, 70_reset_and_hazards.md R207): pulses `d` slots apart are decoded correctly exactly when the measured
gap lies in `((d - 1) * PERIOD, d * PERIOD]`. -/
def Obligations.GapToleranceIsOneSided : Prop :=
  ∀ period gap d : Nat, 1 ≤ period → 1 ≤ gap → 1 ≤ d →
    (gapBits period gap = List.replicate (d - 1) false ++ [true] ↔ (d - 1) * period < gap ∧ gap ≤ d * period)

/-- The bits of a marked edge (42_slicer_gap.md R147, 20_memory.md R61): with room in the queue, exactly `NF(g) + 1` `BIT` steps deliver `GapBits(g)` in
order, and then no bit is pending. -/
def Obligations.BitStepsDeliverTheGap : Prop :=
  ∀ (s : State) (g : Nat), s.cfg.legal = true → 1 ≤ g → s.phase = .scan → s.cfg.fqDepth = none →
    s.pendf = (g - 1) / s.cfg.period → s.pendt = true →
    execAll (List.replicate ((g - 1) / s.cfg.period + 1) .bit) s =
      .next { ({ s with pendf := 0, pendt := false }.accBits (gapBits s.cfg.period g)) with resp := .performed }

/-- Re-marking inside one pulse (42_slicer_gap.md R148): a run of `n` indices above the threshold, first reached farther than `MINGAP` from the last
marked edge, is marked `ceil(n / (MINGAP + 1))` times; each marking gives exactly one `true` bit. -/
def Obligations.LongPulseIsMarkedRepeatedly : Prop :=
  ∀ (c : Config) (e : List Rat) (m : Rat) (k n last : Nat), c.legal = true →
    (∀ j, k ≤ j → j < k + n → max 0 (e.getD j 0 - m) > (c.thrNum : Rat) / c.thrDen) → k - last > c.mingap →
    (scanBits c e m (List.range' k n) last).count true = (n + c.mingap) / (c.mingap + 1)

/-- The number of bits a block decodes (70_reset_and_hazards.md R216): at most one less than the length of its envelope. -/
def Obligations.BlockBitsAreBounded : Prop :=
  ∀ (c : Config) (e : List Rat), c.legal = true → (blockBits c e).length ≤ e.length - 1

/-! ### The accumulator -/

/-- The accumulator's invariants hold after every bit (10_state.md R26, 43_deserializer_frame.md R166, R169): and the bit never meets a set bit. -/
def Obligations.AccumulatorInvariantsHold : Prop :=
  ∀ (s : State) (b : Bool), AccumulatorOk s →
    AccumulatorOk (s.accBit b) ∧ s.pbyte.getLsbD s.pbits = false ∧
    ((s.accBit b).fq = s.fq ∨ ∃ f : Frame, (s.accBit b).fq = s.fq ++ [f] ∧ 1 ≤ f.length ∧ f.length ≤ 127 ∧
      FreshAccumulator (s.accBit b))

/-- Frames survive the wire (30_encoding.md R70, R71; 43_deserializer_frame.md R161 to R164): the bits of any frames of 1 to 127 bytes, sent one after
another to a fresh accumulator, put exactly those frames into the queue and leave the accumulator fresh. -/
def Obligations.WireFormatRoundTrips : Prop :=
  ∀ (s : State) (frames : List Frame), FreshAccumulator s → (∀ f ∈ frames, 1 ≤ f.length ∧ f.length ≤ 127) →
    s.accBits (frames.flatMap frameBits) = { s with fq := s.fq ++ frames }

/-- A frame of `n` payload bytes is emitted by the `8 * (n + 1)`-th bit counted from the first bit of its header, and not before
(43_deserializer_frame.md R164; the eager flush of 90_conflicts.md C2). -/
def Obligations.FrameAppearsWithItsLastBit : Prop :=
  ∀ (s : State) (f : Frame), FreshAccumulator s → 1 ≤ f.length → f.length ≤ 127 →
    (frameBits f).length = 8 * (f.length + 1) ∧
    (∀ k < 8 * (f.length + 1), (s.accBits ((frameBits f).take k)).fq = s.fq) ∧
    (s.accBits (frameBits f)).fq = s.fq ++ [f]

/-- The zero-length stall (43_deserializer_frame.md R165, 20_memory.md R55): any number of `0x00` and `0x01` bytes in header position is skipped, and
the next byte is taken as a header. -/
def Obligations.ZeroLengthHeadersAreSkipped : Prop :=
  ∀ (s : State) (bytes : List Byte) (v : Byte), FreshAccumulator s → (∀ b ∈ bytes, b.toNat ≤ 1) →
    s.accBits (bytes.flatMap byteBits) = s ∧
    s.accBits (bytes.flatMap byteBits ++ byteBits v) = { s with explen := v.toNat / 2 }

/-! ### Whole blocks -/

/-- What a whole block computes, and in how many steps (40_block_control.md R111, 70_reset_and_hazards.md R216): from the start of a block, its samples
and `END`, and then the datapath's turns, take one step for each sample, one for `END`, one for each envelope index, one for each bit and
one for `DONE`; the frames appended to the queue are `DecodeBlock` of the samples, and everything else is as it was. -/
def Obligations.BlockRunComputesDecodeBlock : Prop :=
  ∀ (s : State) (codes : List Nat), BlockInv s → s.phase = .fill → s.cnt = 0 →
    (∀ d ∈ codes, d < 2 ^ s.cfg.aw) → (∀ n, s.cfg.nmax = some n → codes.length ≤ n) →
    (∀ n, s.cfg.fqDepth = some n → s.fq.length + (decodeBlock s.cfg codes).length < n) →
    s.requests = requestsOf s.cfg.aw (blockOps codes) →
    Host.Core.run Sys2Proof.core
        (codes.length + 1 + (codes.length + 1 - s.cfg.w) +
          (blockBits s.cfg (envelopeTrace s.cfg (codes.map (sampleValue s.cfg)))).length + 1) s =
      .next { s with requests := [], fq := s.fq ++ decodeBlock s.cfg codes, resp := .performed }

/-- The same for every interleaving (40_block_control.md R111, 20_memory.md R61, R62), the block ended by `END` or by `SAMPLE_LAST`: with `POP`, `RDREG`
and datapath turns mixed in anywhere, once the block is over, the frames popped and the frames left are together the old queue
followed by `DecodeBlock` of the samples, in order, and the block is back at its reset values. -/
def Obligations.InterleavedBlockDeliversItsFrames : Prop :=
  ∀ (s t : State) (codes : List Nat), BlockInv s → s.phase = .fill → s.cnt = 0 →
    (∀ d ∈ codes, d < 2 ^ s.cfg.aw) → (∀ n, s.cfg.nmax = some n → codes.length ≤ n) →
    (∀ r ∈ s.requests, r.port = .command ∨ r.port = .frame ∨ r.port = .register ∨ r.port = .datapath) →
    (s.requests.filter (fun r => decide (r.port = .command)) = requestsOf s.cfg.aw (blockOps codes) ∨
      ∃ first d, codes = first ++ [d] ∧
        s.requests.filter (fun r => decide (r.port = .command)) =
          requestsOf s.cfg.aw (first.map .sample ++ [.sampleLast d])) →
    Host.Core.run Sys2Proof.core s.requests.length s = .next t → t.phase = .fill →
    popLog s.requests.length s ++ t.fq = s.fq ++ decodeBlock s.cfg codes ∧
    t = { s with requests := [], fq := t.fq, resp := t.resp }

/-! ### Ports, edges, lanes -/

/-- `c_ready` (30_encoding.md R81): a presented command word is performed exactly when `c_ready` is 1; a word that is not performed has no effect. -/
def Obligations.ReadyMeansPerformed : Prop :=
  ∀ (s : State) (w : Nat), w < 4 * 2 ^ s.cfg.aw →
    ∃ i t, decode s.context ⟨.command, w⟩ = .ok i ∧ exec i s = .next t ∧
      (s.cReady w = true ↔ t.resp = .performed) ∧ (s.cReady w = false → t = { s with resp := .held })

/-- Requests that meet at an edge (60_exceptions.md R185 a, b; 30_encoding.md R85, R87): reset alone is performed when `rst` = 1; otherwise every
operation of the edge is performed, one after another, and none is held: the command whose condition holds, a `POP`, which answers with the
head presented before the edge, and the enabled datapath step at an edge where the datapath steps. -/
def Obligations.EdgePerformsItsRequests : Prop :=
  ∀ (e : Edge) (s : State),
    (e.rst = true → clockEdge e s = exec .reset s) ∧
    (∀ before i after, edgeOps e s = before ++ i :: after →
      ∃ u, execAll before s = .next u ∧ u.enabled i = true) ∧
    (e.rst = false → e.cValid = true → ∀ i, decode s.context ⟨.command, e.cWord⟩ = .ok i →
      (s.enabled i = true ↔ i ∈ edgeOps e s)) ∧
    (e.rst = false → e.fPop = true →
      ∃ before after u v, edgeOps e s = before ++ .pop :: after ∧ execAll before s = .next u ∧
        exec .pop u = .next v ∧ v.resp = .frame s.fq.head?) ∧
    (e.rst = false → ∀ i ∈ [Instr.slice, .bit, .done],
      i ∈ edgeOps e s ↔ e.dStep = true ∧ s.due = i ∧ s.enabled i = true)

/-- Command-port and frame-port operations touch disjoint state (60_exceptions.md R185 d): their order never matters, but for which answer came last. -/
def Obligations.CommandsCommuteWithPop : Prop :=
  ∀ (s : State) (i : Instr), (i = .nop ∨ (∃ d, i = .sample d ∨ i = .sampleLast d) ∨ i = .endBlock) →
    ∃ t u, execAll [i, .pop] s = .next t ∧ execAll [.pop, i] s = .next u ∧
      { t with resp := u.resp } = u ∧ t.resp = .frame s.fq.head? ∧
      (u.resp = .held ↔ s.enabled i = false)

/-- The frame port (30_encoding.md R80, R85): `f_avail`, `f_len` and byte `i` of `f_payload` show the head of the queue, 0 beyond its length. -/
def Obligations.FramePortShowsHead : Prop :=
  ∀ s : State, QueueOk s →
    (s.fAvail = true ↔ s.fq ≠ []) ∧ s.fLen.toNat = (s.fq.headD []).length ∧
    (∀ i < 127, s.fPayload.extractLsb' (8 * i) 8 = (s.fq.headD []).getD i 0)

/-- Several lanes (60_exceptions.md R192): a step of one lane is the block's own step with the shared queue for its queue, and no other lane is
touched. (That this holds of the shared queue under `RESET`, `POP` and `FQ_DEPTH` too is the model's choice, log 16.) -/
def Obligations.LanesShareOnlyTheQueue : Prop :=
  ∀ (sys : Lanes) (k : Nat) (i : Instr) (s : State), sys.lanes[k]? = some s →
    (∃ t, exec i { s with fq := sys.fq } = .next t ∧ (sys.exec k i).fq = t.fq ∧ (sys.exec k i).lanes[k]? = some t) ∧
    (sys.exec k i).lanes.length = sys.lanes.length ∧
    (∀ j, j ≠ k → (sys.exec k i).lanes[j]? = sys.lanes[j]?)

/-- A `POP` and a datapath step at one edge (60_exceptions.md R185 c). Where a `BIT` emits a frame and the queue is empty, `POP` taken first finds
none and `BIT` taken first lets it find the frame; where the queue is full, a `POP` taken first lifts the hold of the `BIT`; in every
other case the two orders agree, but for which answer came last. The edge behaves as the hardware: `POP` first in the first case, the
`BIT` refused in the second. -/
def Obligations.PopMeetsDatapathStep : Prop :=
  ∀ (s t : State) (i : Instr), i ∈ [Instr.slice, .bit, .done] → exec i s = .next t →
    (∀ f, s.fq = [] → t.fq = [f] →
      (∃ u v w, exec .pop s = .next u ∧ u.resp = .frame none ∧ exec .bit u = .next v ∧ v.fq = [f] ∧
        exec .pop t = .next w ∧ w.resp = .frame (some f) ∧ w.fq = []) ∧
      (∀ e : Edge, e.rst = false → e.fPop = true → e.dStep = true → ∃ x, clockEdge e s = .next x ∧ x.fq = [f])) ∧
    (s.phase = .scan → (0 < s.pendf ∨ s.pendt = true) → s.fq ≠ [] → s.cfg.fqDepth = some s.fq.length → i = .bit →
      t.resp = .held ∧ (∃ u, execAll [.pop, .bit] s = .next u ∧ u.resp = .performed) ∧
      (∀ e : Edge, e.rst = false → e.fPop = true →
        ∃ x, clockEdge e s = .next x ∧ { s with fq := s.fq.tail, resp := x.resp } = x)) ∧
    ((s.fq ≠ [] ∨ t.fq = s.fq) → (i = .bit → s.cfg.fqDepth ≠ some s.fq.length) → QueueOk s →
      ∃ u v, execAll [i, .pop] s = .next u ∧ execAll [.pop, i] s = .next v ∧ { u with resp := v.resp } = v ∧
        u.resp = .frame s.fq.head? ∧ v.resp = t.resp)
end

