-- ==== Sys2Proof/Laws/State.lean ====
section
/-!
SUPPORT. What each plain update does to each field of the state, one lemma per field, so that no later proof unfolds an update.
-/

namespace Sys2Proof.Machine.State

/-! `respond` writes the response alone. -/

@[simp] theorem respond_cfg (s : State) (r : Response) : (s.respond r).cfg = s.cfg := rfl
@[simp] theorem respond_requests (s : State) (r : Response) : (s.respond r).requests = s.requests := rfl
@[simp] theorem respond_resp (s : State) (r : Response) : (s.respond r).resp = r := rfl
@[simp] theorem respond_phase (s : State) (r : Response) : (s.respond r).phase = s.phase := rfl
@[simp] theorem respond_cnt (s : State) (r : Response) : (s.respond r).cnt = s.cnt := rfl
@[simp] theorem respond_win (s : State) (r : Response) : (s.respond r).win = s.win := rfl
@[simp] theorem respond_env (s : State) (r : Response) : (s.respond r).env = s.env := rfl
@[simp] theorem respond_idx (s : State) (r : Response) : (s.respond r).idx = s.idx := rfl
@[simp] theorem respond_last (s : State) (r : Response) : (s.respond r).last = s.last := rfl
@[simp] theorem respond_pendf (s : State) (r : Response) : (s.respond r).pendf = s.pendf := rfl
@[simp] theorem respond_pendt (s : State) (r : Response) : (s.respond r).pendt = s.pendt := rfl
@[simp] theorem respond_explen (s : State) (r : Response) : (s.respond r).explen = s.explen := rfl
@[simp] theorem respond_pay (s : State) (r : Response) : (s.respond r).pay = s.pay := rfl
@[simp] theorem respond_pbyte (s : State) (r : Response) : (s.respond r).pbyte = s.pbyte := rfl
@[simp] theorem respond_pbits (s : State) (r : Response) : (s.respond r).pbits = s.pbits := rfl
@[simp] theorem respond_fq (s : State) (r : Response) : (s.respond r).fq = s.fq := rfl

/-! `hold` writes the response alone. -/

@[simp] theorem hold_cfg (s : State) : s.hold.cfg = s.cfg := rfl
@[simp] theorem hold_requests (s : State) : s.hold.requests = s.requests := rfl
@[simp] theorem hold_resp (s : State) : s.hold.resp = .held := rfl
@[simp] theorem hold_phase (s : State) : s.hold.phase = s.phase := rfl
@[simp] theorem hold_cnt (s : State) : s.hold.cnt = s.cnt := rfl
@[simp] theorem hold_win (s : State) : s.hold.win = s.win := rfl
@[simp] theorem hold_env (s : State) : s.hold.env = s.env := rfl
@[simp] theorem hold_idx (s : State) : s.hold.idx = s.idx := rfl
@[simp] theorem hold_last (s : State) : s.hold.last = s.last := rfl
@[simp] theorem hold_pendf (s : State) : s.hold.pendf = s.pendf := rfl
@[simp] theorem hold_pendt (s : State) : s.hold.pendt = s.pendt := rfl
@[simp] theorem hold_explen (s : State) : s.hold.explen = s.explen := rfl
@[simp] theorem hold_pay (s : State) : s.hold.pay = s.pay := rfl
@[simp] theorem hold_pbyte (s : State) : s.hold.pbyte = s.pbyte := rfl
@[simp] theorem hold_pbits (s : State) : s.hold.pbits = s.pbits := rfl
@[simp] theorem hold_fq (s : State) : s.hold.fq = s.fq := rfl

/-! `closeBlock` (40_block_control.md R104). -/

@[simp] theorem closeBlock_cfg (s : State) : s.closeBlock.cfg = s.cfg := rfl
@[simp] theorem closeBlock_requests (s : State) : s.closeBlock.requests = s.requests := rfl
@[simp] theorem closeBlock_resp (s : State) : s.closeBlock.resp = s.resp := rfl
@[simp] theorem closeBlock_phase (s : State) : s.closeBlock.phase = .scan := rfl
@[simp] theorem closeBlock_cnt (s : State) : s.closeBlock.cnt = s.cnt := rfl
@[simp] theorem closeBlock_win (s : State) : s.closeBlock.win = s.win := rfl
@[simp] theorem closeBlock_env (s : State) : s.closeBlock.env = s.env := rfl
@[simp] theorem closeBlock_idx (s : State) : s.closeBlock.idx = 0 := rfl
@[simp] theorem closeBlock_last (s : State) : s.closeBlock.last = 0 := rfl
@[simp] theorem closeBlock_pendf (s : State) : s.closeBlock.pendf = 0 := rfl
@[simp] theorem closeBlock_pendt (s : State) : s.closeBlock.pendt = false := rfl
@[simp] theorem closeBlock_explen (s : State) : s.closeBlock.explen = 0 := rfl
@[simp] theorem closeBlock_pay (s : State) : s.closeBlock.pay = [] := rfl
@[simp] theorem closeBlock_pbyte (s : State) : s.closeBlock.pbyte = 0 := rfl
@[simp] theorem closeBlock_pbits (s : State) : s.closeBlock.pbits = 0 := rfl
@[simp] theorem closeBlock_fq (s : State) : s.closeBlock.fq = s.fq := rfl

/-! `blockClear` (40_block_control.md R109). -/

@[simp] theorem blockClear_cfg (s : State) : s.blockClear.cfg = s.cfg := rfl
@[simp] theorem blockClear_requests (s : State) : s.blockClear.requests = s.requests := rfl
@[simp] theorem blockClear_resp (s : State) : s.blockClear.resp = s.resp := rfl
@[simp] theorem blockClear_phase (s : State) : s.blockClear.phase = s.phase := rfl
@[simp] theorem blockClear_cnt (s : State) : s.blockClear.cnt = 0 := rfl
@[simp] theorem blockClear_win (s : State) : s.blockClear.win = [] := rfl
@[simp] theorem blockClear_env (s : State) : s.blockClear.env = [] := rfl
@[simp] theorem blockClear_idx (s : State) : s.blockClear.idx = 0 := rfl
@[simp] theorem blockClear_last (s : State) : s.blockClear.last = 0 := rfl
@[simp] theorem blockClear_pendf (s : State) : s.blockClear.pendf = 0 := rfl
@[simp] theorem blockClear_pendt (s : State) : s.blockClear.pendt = false := rfl
@[simp] theorem blockClear_explen (s : State) : s.blockClear.explen = 0 := rfl
@[simp] theorem blockClear_pay (s : State) : s.blockClear.pay = [] := rfl
@[simp] theorem blockClear_pbyte (s : State) : s.blockClear.pbyte = 0 := rfl
@[simp] theorem blockClear_pbits (s : State) : s.blockClear.pbits = 0 := rfl
@[simp] theorem blockClear_fq (s : State) : s.blockClear.fq = s.fq := rfl

/-! `loadGap` (42_slicer_gap.md R141). -/

@[simp] theorem loadGap_cfg (s : State) (g : Nat) : (s.loadGap g).cfg = s.cfg := rfl
@[simp] theorem loadGap_requests (s : State) (g : Nat) : (s.loadGap g).requests = s.requests := rfl
@[simp] theorem loadGap_resp (s : State) (g : Nat) : (s.loadGap g).resp = s.resp := rfl
@[simp] theorem loadGap_phase (s : State) (g : Nat) : (s.loadGap g).phase = s.phase := rfl
@[simp] theorem loadGap_cnt (s : State) (g : Nat) : (s.loadGap g).cnt = s.cnt := rfl
@[simp] theorem loadGap_win (s : State) (g : Nat) : (s.loadGap g).win = s.win := rfl
@[simp] theorem loadGap_env (s : State) (g : Nat) : (s.loadGap g).env = s.env := rfl
@[simp] theorem loadGap_idx (s : State) (g : Nat) : (s.loadGap g).idx = s.idx := rfl
@[simp] theorem loadGap_last (s : State) (g : Nat) : (s.loadGap g).last = s.last := rfl
@[simp] theorem loadGap_pendf (s : State) (g : Nat) : (s.loadGap g).pendf = falseCount s.cfg.period g := rfl
@[simp] theorem loadGap_pendt (s : State) (g : Nat) : (s.loadGap g).pendt = true := rfl
@[simp] theorem loadGap_explen (s : State) (g : Nat) : (s.loadGap g).explen = s.explen := rfl
@[simp] theorem loadGap_pay (s : State) (g : Nat) : (s.loadGap g).pay = s.pay := rfl
@[simp] theorem loadGap_pbyte (s : State) (g : Nat) : (s.loadGap g).pbyte = s.pbyte := rfl
@[simp] theorem loadGap_pbits (s : State) (g : Nat) : (s.loadGap g).pbits = s.pbits := rfl
@[simp] theorem loadGap_fq (s : State) (g : Nat) : (s.loadGap g).fq = s.fq := rfl

/-! `frameEmit` (43_deserializer_frame.md R163). -/

@[simp] theorem frameEmit_cfg (s : State) : s.frameEmit.cfg = s.cfg := rfl
@[simp] theorem frameEmit_requests (s : State) : s.frameEmit.requests = s.requests := rfl
@[simp] theorem frameEmit_resp (s : State) : s.frameEmit.resp = s.resp := rfl
@[simp] theorem frameEmit_phase (s : State) : s.frameEmit.phase = s.phase := rfl
@[simp] theorem frameEmit_cnt (s : State) : s.frameEmit.cnt = s.cnt := rfl
@[simp] theorem frameEmit_win (s : State) : s.frameEmit.win = s.win := rfl
@[simp] theorem frameEmit_env (s : State) : s.frameEmit.env = s.env := rfl
@[simp] theorem frameEmit_idx (s : State) : s.frameEmit.idx = s.idx := rfl
@[simp] theorem frameEmit_last (s : State) : s.frameEmit.last = s.last := rfl
@[simp] theorem frameEmit_pendf (s : State) : s.frameEmit.pendf = s.pendf := rfl
@[simp] theorem frameEmit_pendt (s : State) : s.frameEmit.pendt = s.pendt := rfl
@[simp] theorem frameEmit_explen (s : State) : s.frameEmit.explen = 0 := rfl
@[simp] theorem frameEmit_pay (s : State) : s.frameEmit.pay = [] := rfl
@[simp] theorem frameEmit_pbyte (s : State) : s.frameEmit.pbyte = s.pbyte := rfl
@[simp] theorem frameEmit_pbits (s : State) : s.frameEmit.pbits = s.pbits := rfl
@[simp] theorem frameEmit_fq (s : State) : s.frameEmit.fq = s.fq ++ [s.pay] := rfl

/-! `turnTaken` gives the turn away. -/

@[simp] theorem turnTaken_cfg (s : State) : s.turnTaken.cfg = s.cfg := rfl
@[simp] theorem turnTaken_requests (s : State) : s.turnTaken.requests = s.requests.tail := rfl
@[simp] theorem turnTaken_resp (s : State) : s.turnTaken.resp = s.resp := rfl
@[simp] theorem turnTaken_phase (s : State) : s.turnTaken.phase = s.phase := rfl
@[simp] theorem turnTaken_cnt (s : State) : s.turnTaken.cnt = s.cnt := rfl
@[simp] theorem turnTaken_win (s : State) : s.turnTaken.win = s.win := rfl
@[simp] theorem turnTaken_env (s : State) : s.turnTaken.env = s.env := rfl
@[simp] theorem turnTaken_idx (s : State) : s.turnTaken.idx = s.idx := rfl
@[simp] theorem turnTaken_last (s : State) : s.turnTaken.last = s.last := rfl
@[simp] theorem turnTaken_pendf (s : State) : s.turnTaken.pendf = s.pendf := rfl
@[simp] theorem turnTaken_pendt (s : State) : s.turnTaken.pendt = s.pendt := rfl
@[simp] theorem turnTaken_explen (s : State) : s.turnTaken.explen = s.explen := rfl
@[simp] theorem turnTaken_pay (s : State) : s.turnTaken.pay = s.pay := rfl
@[simp] theorem turnTaken_pbyte (s : State) : s.turnTaken.pbyte = s.pbyte := rfl
@[simp] theorem turnTaken_pbits (s : State) : s.turnTaken.pbits = s.pbits := rfl
@[simp] theorem turnTaken_fq (s : State) : s.turnTaken.fq = s.fq := rfl

/-! `withFetchWord` presents a word as the next turn. -/

@[simp] theorem withFetchWord_cfg (s : State) (n w : Nat) : (s.withFetchWord n w).cfg = s.cfg := rfl
@[simp] theorem withFetchWord_requests (s : State) (n w : Nat) : (s.withFetchWord n w).requests = tableRequest n w :: s.requests := rfl
@[simp] theorem withFetchWord_resp (s : State) (n w : Nat) : (s.withFetchWord n w).resp = s.resp := rfl
@[simp] theorem withFetchWord_phase (s : State) (n w : Nat) : (s.withFetchWord n w).phase = s.phase := rfl
@[simp] theorem withFetchWord_cnt (s : State) (n w : Nat) : (s.withFetchWord n w).cnt = s.cnt := rfl
@[simp] theorem withFetchWord_win (s : State) (n w : Nat) : (s.withFetchWord n w).win = s.win := rfl
@[simp] theorem withFetchWord_env (s : State) (n w : Nat) : (s.withFetchWord n w).env = s.env := rfl
@[simp] theorem withFetchWord_idx (s : State) (n w : Nat) : (s.withFetchWord n w).idx = s.idx := rfl
@[simp] theorem withFetchWord_last (s : State) (n w : Nat) : (s.withFetchWord n w).last = s.last := rfl
@[simp] theorem withFetchWord_pendf (s : State) (n w : Nat) : (s.withFetchWord n w).pendf = s.pendf := rfl
@[simp] theorem withFetchWord_pendt (s : State) (n w : Nat) : (s.withFetchWord n w).pendt = s.pendt := rfl
@[simp] theorem withFetchWord_explen (s : State) (n w : Nat) : (s.withFetchWord n w).explen = s.explen := rfl
@[simp] theorem withFetchWord_pay (s : State) (n w : Nat) : (s.withFetchWord n w).pay = s.pay := rfl
@[simp] theorem withFetchWord_pbyte (s : State) (n w : Nat) : (s.withFetchWord n w).pbyte = s.pbyte := rfl
@[simp] theorem withFetchWord_pbits (s : State) (n w : Nat) : (s.withFetchWord n w).pbits = s.pbits := rfl
@[simp] theorem withFetchWord_fq (s : State) (n w : Nat) : (s.withFetchWord n w).fq = s.fq := rfl

/-! The state of an instance just reset (10_state.md R34). -/

@[simp] theorem initial_cfg (c : Config) : (initial c).cfg = c := rfl
@[simp] theorem initial_requests (c : Config) : (initial c).requests = [] := rfl
@[simp] theorem initial_resp (c : Config) : (initial c).resp = .idle := rfl
@[simp] theorem initial_phase (c : Config) : (initial c).phase = .fill := rfl
@[simp] theorem initial_cnt (c : Config) : (initial c).cnt = 0 := rfl
@[simp] theorem initial_win (c : Config) : (initial c).win = [] := rfl
@[simp] theorem initial_env (c : Config) : (initial c).env = [] := rfl
@[simp] theorem initial_idx (c : Config) : (initial c).idx = 0 := rfl
@[simp] theorem initial_last (c : Config) : (initial c).last = 0 := rfl
@[simp] theorem initial_pendf (c : Config) : (initial c).pendf = 0 := rfl
@[simp] theorem initial_pendt (c : Config) : (initial c).pendt = false := rfl
@[simp] theorem initial_explen (c : Config) : (initial c).explen = 0 := rfl
@[simp] theorem initial_pay (c : Config) : (initial c).pay = [] := rfl
@[simp] theorem initial_pbyte (c : Config) : (initial c).pbyte = 0 := rfl
@[simp] theorem initial_pbits (c : Config) : (initial c).pbits = 0 := rfl
@[simp] theorem initial_fq (c : Config) : (initial c).fq = [] := rfl

end Sys2Proof.Machine.State
end

