-- ==== Sys2Proof/Laws/Ops.lean ====
section
/-!
SUPPORT. One lemma per shared operation saying what it can do, and the frame lemmas that follow. Later proofs cite these instead of
unfolding the operations.
-/

namespace Sys2Proof.Machine

/-! ### Performing and holding -/

/-- An attempt always answers a next state: the body's when the require line holds, else the held one. -/
theorem attempt_eq (c : Bool) (f : State → State) (s : State) :
    attempt c f s = .next (if c then f s else s.hold) := rfl

@[simp] theorem attempt_true (f : State → State) (s : State) : attempt true f s = .next (f s) := rfl

@[simp] theorem attempt_false (f : State → State) (s : State) : attempt false f s = .next s.hold := rfl

/-- What a next state of an attempt can be. -/
theorem attempt_cases {c : Bool} {f : State → State} {s t : State} (h : attempt c f s = .next t) :
    (c = true ∧ t = f s) ∨ (c = false ∧ t = s.hold) := by
  cases c
  · exact .inr ⟨rfl, by simpa using h.symm⟩
  · exact .inl ⟨rfl, by simpa using h.symm⟩

/-- A request's turn: `step` runs what it decodes to. -/
theorem step_of_fetch {s : State} {i : Instr} (h : s.fetch = .ok i) : step s = exec i s.turnTaken := by
  simp [step, h]

/-- A request that decodes to nothing is refused. -/
theorem step_of_reject {s : State} {e : Reject} (h : s.fetch = .error e) : step s = .refused (.noRequest e) := by
  simp [step, h]

/-- What a next state of a step can be: the operation fetched ran in the state without its request. -/
theorem step_cases {s t : State} (h : step s = .next t) :
    ∃ i, s.fetch = .ok i ∧ exec i s.turnTaken = .next t := by
  cases hf : s.fetch with
  | ok i => exact ⟨i, rfl, by rw [← step_of_fetch hf]; exact h⟩
  | error e => rw [step_of_reject hf] at h; cases h

/-! ### Optional bounds and the require lines -/

theorem below_iff (b : Option Nat) (n : Nat) : Config.below b n = true ↔ ∀ k, b = some k → n < k := by
  cases b <;> simp [Config.below]

theorem below_false_iff (b : Option Nat) (n : Nat) : Config.below b n = false ↔ ∃ k, b = some k ∧ k ≤ n := by
  cases b <;> simp [Config.below]

theorem atMost_iff (b : Option Nat) (n : Nat) : Config.atMost b n = true ↔ ∀ k, b = some k → n ≤ k := by
  cases b <;> simp [Config.atMost]

theorem reached_iff (b : Option Nat) (n : Nat) : Config.reached b n = true ↔ b = some n := by
  cases b <;> simp [Config.reached, eq_comm]

/-- The two phases exclude each other. -/
theorem phase_ne_fill_iff (s : State) : s.phase ≠ .fill ↔ s.phase = .scan := by
  cases s.phase <;> simp

theorem phase_ne_scan_iff (s : State) : s.phase ≠ .scan ↔ s.phase = .fill := by
  cases s.phase <;> simp

theorem bitPending_iff (s : State) : s.bitPending = true ↔ 0 < s.pendf ∨ s.pendt = true := by
  simp [State.bitPending]

theorem bitPending_false_iff (s : State) : s.bitPending = false ↔ s.pendf = 0 ∧ s.pendt = false := by
  simp [State.bitPending]

theorem canSample_iff (s : State) :
    s.canSample = true ↔ s.phase = .fill ∧ ∀ n, s.cfg.nmax = some n → s.cnt < n := by
  simp [State.canSample, State.space, below_iff]

theorem canEnd_iff (s : State) : s.canEnd = true ↔ s.phase = .fill := by
  simp [State.canEnd]

theorem canSlice_iff (s : State) :
    s.canSlice = true ↔ s.phase = .scan ∧ s.idx < s.env.length ∧ s.pendf = 0 ∧ s.pendt = false := by
  simp [State.canSlice, bitPending_false_iff, and_assoc]

theorem canBit_iff (s : State) :
    s.canBit = true ↔
      s.phase = .scan ∧ (0 < s.pendf ∨ s.pendt = true) ∧ ∀ n, s.cfg.fqDepth = some n → s.fq.length < n := by
  simp [State.canBit, State.room, bitPending_iff, below_iff, and_assoc]

theorem canDone_iff (s : State) :
    s.canDone = true ↔ s.phase = .scan ∧ s.idx = s.env.length ∧ s.pendf = 0 ∧ s.pendt = false := by
  simp [State.canDone, bitPending_false_iff, and_assoc]

theorem completesByte_iff (s : State) (v : Byte) :
    s.completesByte v = true ↔ s.canBit = true ∧ s.pbits = 7 ∧ nextPartial s s.nextBit = v := by
  simp [State.completesByte, and_assoc]

theorem canTakeHeader_iff (s : State) (v : Byte) :
    s.canTakeHeader v = true ↔ s.canBit = true ∧ s.pbits = 7 ∧ nextPartial s s.nextBit = v ∧ s.explen = 0 := by
  simp [State.canTakeHeader, completesByte_iff, State.awaiting, and_assoc]

theorem canTakePayload_iff (s : State) (v : Byte) :
    s.canTakePayload v = true ↔ s.canBit = true ∧ s.pbits = 7 ∧ nextPartial s s.nextBit = v ∧ 0 < s.explen := by
  simp [State.canTakePayload, completesByte_iff, State.awaiting, and_assoc, Nat.pos_iff_ne_zero]

/-! ### Samples -/

/-- What `envPush` does: one of two cases, by whether the window is full with the new sample (41_envelope.md R121). -/
theorem envPush_cases (s : State) (a : Rat) :
    (s.win.length + 1 = s.cfg.w ∧
      s.envPush a =
        { s with env := s.env ++ [windowValue s.cfg (s.win ++ [a])], win := (s.win ++ [a]).tail }) ∨
    (s.win.length + 1 ≠ s.cfg.w ∧ s.envPush a = { s with win := s.win ++ [a] }) := by
  by_cases h : s.win.length + 1 = s.cfg.w
  · exact .inl ⟨h, by simp [State.envPush, h]⟩
  · exact .inr ⟨h, by simp [State.envPush, h]⟩

/-- A sample writes `WIN`, `ENV` and `CNT` alone. -/
theorem takeSample_frame (s : State) (d : Nat) :
    s.takeSample d =
      { s with
        win := (s.envPush (sampleValue s.cfg d)).win
        env := (s.envPush (sampleValue s.cfg d)).env
        cnt := s.cnt + 1 } := by
  rcases envPush_cases s (sampleValue s.cfg d) with ⟨_, h⟩ | ⟨_, h⟩ <;> simp [State.takeSample, h]

/-! ### One index of the scan -/

/-- What `sliceIndex` does: the index is marked, with its gap pending, or only passed (42_slicer_gap.md R141). -/
theorem sliceIndex_cases (s : State) :
    (isCandidate s.cfg s.env s.idx = true ∧ s.gapTimer > s.cfg.mingap ∧
      s.sliceIndex =
        { s with
          pendf := falseCount s.cfg.period s.gapTimer, pendt := true, last := s.idx, idx := s.idx + 1 }) ∨
    (¬(isCandidate s.cfg s.env s.idx = true ∧ s.gapTimer > s.cfg.mingap) ∧
      s.sliceIndex = { s with idx := s.idx + 1 }) := by
  by_cases hc : isCandidate s.cfg s.env s.idx = true
  · by_cases hg : s.gapTimer > s.cfg.mingap
    · exact .inl ⟨hc, hg, by simp [State.sliceIndex, hc, hg, State.loadGap]⟩
    · exact .inr ⟨fun h => hg h.2, by simp [State.sliceIndex, hc, hg]⟩
  · exact .inr ⟨fun h => hc h.1, by simp [State.sliceIndex, hc]⟩

/-! ### The accumulator -/

/-- What `accByte` does: header, payload byte inside a frame, or payload byte that completes a frame (43_deserializer_frame.md R162). -/
theorem accByte_cases (s : State) (v : Byte) :
    (s.explen = 0 ∧ s.accByte v = { s with explen := (v >>> 1).toNat }) ∨
    (s.explen ≠ 0 ∧ s.pay.length + 1 ≠ s.explen ∧ s.accByte v = { s with pay := s.pay ++ [v] }) ∨
    (s.explen ≠ 0 ∧ s.pay.length + 1 = s.explen ∧
      s.accByte v = { s with fq := s.fq ++ [s.pay ++ [v]], pay := [], explen := 0 }) := by
  by_cases h : s.explen = 0
  · exact .inl ⟨h, by simp [State.accByte, h]⟩
  · by_cases hl : s.pay.length + 1 = s.explen
    · exact .inr (.inr ⟨h, hl, by simp [State.accByte, h, hl, State.frameEmit]⟩)
    · exact .inr (.inl ⟨h, hl, by simp [State.accByte, h, hl]⟩)

/-- What `accBit` does: the bit is kept, or completes a byte that `accByte` takes in the same step. -/
theorem accBit_cases (s : State) (b : Bool) :
    (s.pbits ≠ 7 ∧ s.accBit b = { s with pbyte := nextPartial s b, pbits := s.pbits + 1 }) ∨
    (s.pbits = 7 ∧ s.accBit b = { s with pbyte := 0, pbits := 0 }.accByte (nextPartial s b)) := by
  by_cases h : s.pbits = 7
  · exact .inr ⟨h, by simp [State.accBit, h, nextPartial]⟩
  · exact .inl ⟨h, by simp [State.accBit, h, nextPartial]⟩

/-- `accByte` writes the accumulator's frame registers and the queue alone. -/
theorem accByte_frame (s : State) (v : Byte) :
    s.accByte v =
      { s with explen := (s.accByte v).explen, pay := (s.accByte v).pay, fq := (s.accByte v).fq } := by
  rcases accByte_cases s v with ⟨_, h⟩ | ⟨_, _, h⟩ | ⟨_, _, h⟩ <;> rw [h]

/-- `accBit` writes the accumulator and the queue alone. -/
theorem accBit_frame (s : State) (b : Bool) :
    s.accBit b =
      { s with
        explen := (s.accBit b).explen, pay := (s.accBit b).pay, pbyte := (s.accBit b).pbyte
        pbits := (s.accBit b).pbits, fq := (s.accBit b).fq } := by
  rcases accBit_cases s b with ⟨_, h⟩ | ⟨_, h⟩
  · rw [h]
  · rw [h, accByte_frame]

@[simp] theorem accBits_nil (s : State) : s.accBits [] = s := rfl

@[simp] theorem accBits_cons (s : State) (b : Bool) (bs : List Bool) :
    s.accBits (b :: bs) = (s.accBit b).accBits bs := rfl

theorem accBits_append (s : State) (xs ys : List Bool) :
    s.accBits (xs ++ ys) = (s.accBits xs).accBits ys := by
  simp [State.accBits, List.foldl_append]

/-- `accBits` writes the accumulator and the queue alone. -/
theorem accBits_frame (bs : List Bool) (s : State) :
    s.accBits bs =
      { s with
        explen := (s.accBits bs).explen, pay := (s.accBits bs).pay, pbyte := (s.accBits bs).pbyte
        pbits := (s.accBits bs).pbits, fq := (s.accBits bs).fq } := by
  induction bs generalizing s with
  | nil => rfl
  | cons b bs ih => rw [accBits_cons, ih, accBit_frame]

/-! The same frames with the new values named, so that a proof can put them in place of the operation. -/

theorem takeSample_shape (s : State) (d : Nat) :
    ∃ w e c, s.takeSample d = { s with win := w, env := e, cnt := c } :=
  ⟨_, _, _, takeSample_frame s d⟩

theorem accByte_shape (s : State) (v : Byte) :
    ∃ e p q, s.accByte v = { s with explen := e, pay := p, fq := q } :=
  ⟨_, _, _, accByte_frame s v⟩

theorem accBit_shape (s : State) (b : Bool) :
    ∃ e p y n q, s.accBit b = { s with explen := e, pay := p, pbyte := y, pbits := n, fq := q } :=
  ⟨_, _, _, _, _, accBit_frame s b⟩

theorem accBits_shape (s : State) (bs : List Bool) :
    ∃ e p y n q, s.accBits bs = { s with explen := e, pay := p, pbyte := y, pbits := n, fq := q } :=
  ⟨_, _, _, _, _, accBits_frame bs s⟩

end Sys2Proof.Machine
end

