-- ==== Sys2Proof/Laws/Accumulator.lean ====
section
/-!
SUPPORT. Eight bits make a byte (20_memory.md R52, 43_deserializer_frame.md R161): what the accumulator does with a whole byte that starts at
a byte boundary.
-/

namespace Sys2Proof.Machine

/-! ### The accumulator does not look at the rest of the state -/

/-- `u` with the accumulator and the queue of `s`. -/
def withAccumulator (u s : State) : State :=
  { u with explen := s.explen, pay := s.pay, pbyte := s.pbyte, pbits := s.pbits, fq := s.fq }

theorem withAccumulator_self (s : State) : withAccumulator s s = s := rfl

/-- `AccByte` depends on the accumulator and the queue alone. -/
theorem accByte_withAccumulator (u s : State) (v : Byte) :
    (withAccumulator u s).accByte v = withAccumulator u (s.accByte v) := by
  by_cases h : s.explen = 0
  · simp [State.accByte, withAccumulator, h]
  · by_cases hl : s.pay.length + 1 = s.explen <;>
      simp [State.accByte, withAccumulator, h, hl, State.frameEmit]

/-- `AccBit` depends on the accumulator and the queue alone. -/
theorem accBit_withAccumulator (u s : State) (b : Bool) :
    (withAccumulator u s).accBit b = withAccumulator u (s.accBit b) := by
  by_cases h : s.pbits = 7
  · have := accByte_withAccumulator u { s with pbyte := 0, pbits := 0 } (nextPartial s b)
    simpa [State.accBit, withAccumulator, h, nextPartial] using this
  · simp [State.accBit, withAccumulator, h, nextPartial]

/-- A run of bits depends on the accumulator and the queue alone. -/
theorem accBits_withAccumulator (bs : List Bool) (u s : State) :
    (withAccumulator u s).accBits bs = withAccumulator u (s.accBits bs) := by
  induction bs generalizing s with
  | nil => rfl
  | cons b bs ih => rw [accBits_cons, accBit_withAccumulator, ih, accBits_cons]

/-- A bit given while other pending bits are registered: the pending registers stay as they are. -/
theorem accBit_pending (s : State) (n : Nat) (c b : Bool) :
    { s with pendf := n, pendt := c }.accBit b = { s.accBit b with pendf := n, pendt := c } := by
  have h := accBit_withAccumulator { s with pendf := n, pendt := c } s b
  obtain ⟨e, p, y, m, q, hs⟩ := accBit_shape s b
  rw [hs] at h ⊢
  exact h

/-- The same for a run of bits. -/
theorem accBits_pending (s : State) (n : Nat) (c : Bool) (bs : List Bool) :
    { s with pendf := n, pendt := c }.accBits bs = { s.accBits bs with pendf := n, pendt := c } := by
  have h := accBits_withAccumulator bs { s with pendf := n, pendt := c } s
  obtain ⟨e, p, y, m, q, hs⟩ := accBits_shape s bs
  rw [hs] at h ⊢
  exact h

/-- The answer of the last step has no influence on a run of bits, and the run does not change it. -/
theorem accBits_respond (s : State) (r : Response) (bs : List Bool) :
    (s.respond r).accBits bs = (s.accBits bs).respond r := by
  have h := accBits_withAccumulator bs (s.respond r) s
  obtain ⟨e, p, y, m, q, hs⟩ := accBits_shape s bs
  rw [hs] at h ⊢
  exact h

/-! ### Whole bytes -/

theorem byteBits_length (v : Byte) : (byteBits v).length = 8 := rfl

/-- The eight bits of a byte, written out in the order they are received. -/
theorem byteBits_eq (v : Byte) :
    byteBits v =
      [v.getLsbD 0, v.getLsbD 1, v.getLsbD 2, v.getLsbD 3, v.getLsbD 4, v.getLsbD 5, v.getLsbD 6, v.getLsbD 7] :=
  rfl

/-- A byte is put together again from its bits, each on its own position (43_deserializer_frame.md R161, R169). -/
theorem byte_of_bits (v : Byte) :
    ((((((((0 : Byte) ||| (BitVec.setWidth 8 (BitVec.ofBool (v.getLsbD 0)) <<< 0)) |||
      (BitVec.setWidth 8 (BitVec.ofBool (v.getLsbD 1)) <<< 1)) |||
      (BitVec.setWidth 8 (BitVec.ofBool (v.getLsbD 2)) <<< 2)) |||
      (BitVec.setWidth 8 (BitVec.ofBool (v.getLsbD 3)) <<< 3)) |||
      (BitVec.setWidth 8 (BitVec.ofBool (v.getLsbD 4)) <<< 4)) |||
      (BitVec.setWidth 8 (BitVec.ofBool (v.getLsbD 5)) <<< 5)) |||
      (BitVec.setWidth 8 (BitVec.ofBool (v.getLsbD 6)) <<< 6)) |||
      (BitVec.setWidth 8 (BitVec.ofBool (v.getLsbD 7)) <<< 7) = v := by
  revert v; decide +kernel

/-- At a byte boundary the eight bits of a byte, bit 0 first, are one `AccByte` of it. -/
theorem accBits_byteBits (s : State) (v : Byte) (hb : s.pbits = 0) (hp : s.pbyte = 0) :
    s.accBits (byteBits v) = s.accByte v := by
  obtain ⟨cfg, requests, resp, phase, cnt, win, env, idx, last, pendf, pendt, explen, pay, pbyte, pbits, fq⟩ := s
  simp only at hb hp
  subst hb hp
  have h := byte_of_bits v
  simp only [byteBits_eq, accBits_cons, accBits_nil, State.accBit, nextPartial]
  norm_num
  congr 1
  simpa using h

/-- The bits of several bytes from a byte boundary: `AccByte` on each, while the boundary is kept. -/
theorem accByte_boundary (s : State) (v : Byte) :
    (s.accByte v).pbits = s.pbits ∧ (s.accByte v).pbyte = s.pbyte := by
  rw [accByte_frame]; exact ⟨rfl, rfl⟩

/-- From a byte boundary, the bits of a list of bytes are `AccByte` on each byte in order. -/
theorem accBits_bytes (bytes : List Byte) (s : State) (hb : s.pbits = 0) (hp : s.pbyte = 0) :
    s.accBits (bytes.flatMap byteBits) = bytes.foldl State.accByte s := by
  induction bytes generalizing s with
  | nil => rfl
  | cons v rest ih =>
    rw [List.flatMap_cons, accBits_append, accBits_byteBits s v hb hp, List.foldl_cons]
    exact ih _ ((accByte_boundary s v).1.trans hb) ((accByte_boundary s v).2.trans hp)

end Sys2Proof.Machine
end

