-- ==== Sys2Proof/Laws/Exec.lean ====
section
/-!
SUPPORT. One equation for every operation at once: `exec` is an attempt of the operation's body under its require line. Case splits over the
operations start from here.
-/

namespace Sys2Proof.Machine

/-- What an operation does to the state when it is performed. -/
def performed : Instr → State → State
  | .nop, s => s.respond .performed
  | .sample d, s => (s.takeSample d).respond .performed
  | .sampleLast d, s => (s.takeSample d).closeBlock.respond .performed
  | .endBlock, s => s.closeBlock.respond .performed
  | .done, s => { s.blockClear with phase := .fill }.respond .performed
  | .pop, s => { s with fq := s.fq.tail }.respond (.frame s.fq.head?)
  | .rdreg n, s => s.respond (.data (s.readRegister n))
  | .reset, s => { s.blockClear with phase := .fill, fq := [] }.respond .performed
  | .slice, s => s.sliceIndex.respond .performed
  | .bit, s => s.deliverBit.respond .performed
  | .hdr _ _, s => s.deliverBit.respond .performed
  | .payload _, s => s.deliverBit.respond .performed
  | .gap g, s => s.respond (.bits (if g > s.cfg.mingap then gapBits s.cfg.period g else []))

/-- Every operation is an attempt of its body under its require line (00_scope.md R10). -/
theorem exec_eq (i : Instr) (s : State) : exec i s = attempt (s.enabled i) (performed i) s := by
  cases i with
  | pop =>
    simp only [exec, execPop, State.enabled, attempt_true, performed]
    cases h : s.fq with
    | nil =>
      obtain ⟨cfg, requests, resp, phase, cnt, win, env, idx, last, pendf, pendt, explen, pay, pbyte, pbits, fq⟩ := s
      simp only at h
      subst h
      rfl
    | cons f rest => simp
  | nop => rfl
  | sample d => rfl
  | sampleLast d => rfl
  | endBlock => rfl
  | done => rfl
  | rdreg n => rfl
  | reset => rfl
  | slice => rfl
  | bit => rfl
  | hdr len mark => rfl
  | payload v => rfl
  | gap g => rfl

/-- An operation whose require line holds is performed. -/
theorem exec_of_enabled {i : Instr} {s : State} (h : s.enabled i = true) : exec i s = .next (performed i s) := by
  rw [exec_eq, h, attempt_true]

/-- An operation whose require line fails is held. -/
theorem exec_of_not_enabled {i : Instr} {s : State} (h : s.enabled i = false) : exec i s = .next s.hold := by
  rw [exec_eq, h, attempt_false]

/-- What a next state of an operation can be. -/
theorem exec_cases {i : Instr} {s t : State} (h : exec i s = .next t) :
    (s.enabled i = true ∧ t = performed i s) ∨ (s.enabled i = false ∧ t = s.hold) :=
  attempt_cases ((exec_eq i s).symm.trans h)

/-- Two next states of one operation on one state are the same. -/
theorem exec_next_unique {i : Instr} {s t u : State} (h : exec i s = .next t) (h' : exec i s = .next u) : t = u := by
  rw [h] at h'; exact Host.Outcome.next.inj h'

/-- A performed operation never answers `held`. -/
theorem performed_resp_ne_held (i : Instr) (s : State) : (performed i s).resp ≠ .held := by
  cases i with
  | gap g => simp [performed]
  | nop => simp [performed]
  | sample d => simp [performed]
  | sampleLast d => simp [performed]
  | endBlock => simp [performed]
  | done => simp [performed]
  | pop => simp [performed]
  | rdreg n => simp [performed]
  | reset => simp [performed]
  | slice => simp [performed]
  | bit => simp [performed]
  | hdr len mark => simp [performed]
  | payload v => simp [performed]

/-- A bit delivered writes the pending registers, the accumulator and the queue alone (42_slicer_gap.md R147). -/
theorem deliverBit_eq (s : State) :
    s.deliverBit =
      if 0 < s.pendf then { s with pendf := s.pendf - 1 }.accBit false else { s with pendt := false }.accBit true :=
  rfl

/-- `deliverBit` writes nothing but the pending registers, the accumulator and the queue. -/
theorem deliverBit_shape (s : State) :
    ∃ a c e p y n q,
      s.deliverBit =
        { s with pendf := a, pendt := c, explen := e, pay := p, pbyte := y, pbits := n, fq := q } := by
  rw [deliverBit_eq]
  split <;> exact ⟨_, _, _, _, _, _, _, accBit_frame _ _⟩

/-- A header operation that is performed is the `BIT` step that completes its byte (10_state.md R25). -/
theorem execHdr_eq_execBit {len : BitVec 7} {mark : Bool} {s : State} (h : s.enabled (.hdr len mark) = true) :
    exec (.hdr len mark) s = exec .bit s := by
  have hb : s.enabled .bit = true := ((canTakeHeader_iff s _).1 h).1
  rw [exec_of_enabled h, exec_of_enabled hb]
  rfl

/-- A payload operation that is performed is the `BIT` step that completes its byte (10_state.md R25). -/
theorem execPayload_eq_execBit {v : Byte} {s : State} (h : s.enabled (.payload v) = true) :
    exec (.payload v) s = exec .bit s := by
  have hb : s.enabled .bit = true := ((canTakePayload_iff s _).1 h).1
  rw [exec_of_enabled h, exec_of_enabled hb]
  rfl

/-- No operation writes the configuration or the turns to come (00_scope.md R5). -/
theorem performed_cfg_requests (i : Instr) (s : State) :
    (performed i s).cfg = s.cfg ∧ (performed i s).requests = s.requests := by
  cases i with
  | gap g => exact ⟨rfl, rfl⟩
  | sample d => simp only [performed]; rw [takeSample_frame]; exact ⟨rfl, rfl⟩
  | sampleLast d => simp only [performed]; rw [takeSample_frame]; exact ⟨rfl, rfl⟩
  | slice =>
    rcases sliceIndex_cases s with ⟨_, _, h⟩ | ⟨_, h⟩ <;> simp [performed, h]
  | bit => obtain ⟨a, c, e, p, y, n, q, h⟩ := deliverBit_shape s; simp [performed, h]
  | hdr len mark => obtain ⟨a, c, e, p, y, n, q, h⟩ := deliverBit_shape s; simp [performed, h]
  | payload v => obtain ⟨a, c, e, p, y, n, q, h⟩ := deliverBit_shape s; simp [performed, h]
  | nop => exact ⟨rfl, rfl⟩
  | endBlock => exact ⟨rfl, rfl⟩
  | done => exact ⟨rfl, rfl⟩
  | pop => exact ⟨rfl, rfl⟩
  | rdreg n => exact ⟨rfl, rfl⟩
  | reset => exact ⟨rfl, rfl⟩

end Sys2Proof.Machine
end

