-- ==== Sys2Proof/Laws/PerInstr.lean ====
section
/-!
SUPPORT. Facts about the operations as syntax, stated once for all and proved one constructor at a time: the word of a well-formed
operation fits the port it is sent on (30_encoding.md R80, R82, R85, R87; R71, R72 for the wire bytes).
-/

namespace Sys2Proof.Laws.WordFits

/-- The number of bits a port's word has, where the spec bounds it. The register number is open upwards (40_block_control.md R107), a gap is a
number and not a bit pattern (30_encoding.md R90), and the datapath's turn has no word. -/
def portBits (aw : Nat) : Port → Option Nat
  | .command => some (aw + 2)
  | .frame => some 1
  | .register => none
  | .resetPin => some 1
  | .datapath => some 0
  | .wireByte => some 8
  | .wireGap => none

/-- The word of a well-formed operation has no bit above those of its port. -/
def Statement (i : Instr) : Prop :=
  ∀ c : Config, i.wellFormed c = true →
    ∀ n, portBits c.aw (encode c.aw i).port = some n → (encode c.aw i).word < 2 ^ n

/-- What fits `AW` bits, put beside a two-bit `op`, fits the command port. -/
theorem command_word_lt {aw op d : Nat} (ho : op < 4) (hd : d < 2 ^ aw) : op * 2 ^ aw + d < 2 ^ (aw + 2) := by
  have h : (op + 1) * 2 ^ aw ≤ 4 * 2 ^ aw := Nat.mul_le_mul_right _ ho
  rw [Nat.add_mul] at h
  rw [Nat.pow_add]
  omega

theorem nop : Statement .nop := by
  intro c _ n h
  simp only [encode, portBits, Option.some.injEq] at h ⊢
  exact h ▸ Nat.two_pow_pos _

theorem sample (d : Nat) : Statement (.sample d) := by
  intro c hw n h
  simp only [encode, portBits, Option.some.injEq] at h ⊢
  exact h ▸ command_word_lt (by omega) (of_decide_eq_true hw)

theorem sampleLast (d : Nat) : Statement (.sampleLast d) := by
  intro c hw n h
  simp only [encode, portBits, Option.some.injEq] at h ⊢
  exact h ▸ command_word_lt (by omega) (of_decide_eq_true hw)

theorem endBlock : Statement .endBlock := by
  intro c _ n h
  simp only [encode, portBits, Option.some.injEq] at h ⊢
  exact h ▸ command_word_lt (d := 0) (by omega) (Nat.two_pow_pos _)

theorem done : Statement .done := by
  intro c _ n _
  exact Nat.two_pow_pos n

theorem pop : Statement .pop := by
  intro c _ n h
  simp only [encode, portBits, Option.some.injEq] at h ⊢
  subst h; decide

theorem rdreg (n : Nat) : Statement (.rdreg n) := by
  intro c _ m h
  simp [encode, portBits] at h

theorem reset : Statement .reset := by
  intro c _ n h
  simp only [encode, portBits, Option.some.injEq] at h ⊢
  subst h; decide

theorem slice : Statement .slice := by
  intro c _ n _
  exact Nat.two_pow_pos n

theorem bit : Statement .bit := by
  intro c _ n _
  exact Nat.two_pow_pos n

theorem hdr (len : BitVec 7) (mark : Bool) : Statement (.hdr len mark) := by
  intro c _ n h
  simp only [encode, portBits, Option.some.injEq] at h ⊢
  exact h ▸ (headerByte len mark).isLt

theorem payload (v : Byte) : Statement (.payload v) := by
  intro c _ n h
  simp only [encode, portBits, Option.some.injEq] at h ⊢
  exact h ▸ v.isLt

theorem gap (g : Nat) : Statement (.gap g) := by
  intro c _ n h
  simp [encode, portBits] at h

end Sys2Proof.Laws.WordFits
end

