-- ==== Sys2Proof/Tests/Slice0.lean ====
section
/-!
SUPPORT. Small checks of the model against words and values written out in spec/ (95_test_vectors.md, and the examples inside the rules), and for
every statement with hypotheses a state and operands that meet them.
-/

namespace Sys2Proof.Tests

set_option Elab.async false

open Sys2Proof.Machine Sys2Proof.Safety

/-! ### Helpers -/

/-- The configuration "Small" of 95_test_vectors.md. -/
def small : Config := { Config.default with w := 2, g := 2, thrNum := 1, thrDen := 2, mingap := 1, period := 4, af := 0 }

/-- "Small" with a block buffer of three samples (vector BC3) and a queue of one frame. -/
def bounded : Config := { small with nmax := some 3, fqDepth := some 1 }

/-- The configuration of vector S2. -/
def levels : Config := { small with w := 1, g := 1, mingap := 0 }

/-- `levels` with one envelope index per bit, a block of at most 17 samples, and a queue of two frames. -/
def slots : Config := { levels with period := 1, nmax := some 17, fqDepth := some 2 }

/-- The state an operation answers, if it answers one. -/
def answer : Host.Outcome State Fault Refusal → Option State
  | .next t => some t
  | .fault _ => none
  | .refused _ => none

/-- The state after a sequence of operations. -/
def after (ops : List Instr) (s : State) : State := (answer (execAll ops s)).getD s

/-- Every operation answers the state `after` names. -/
theorem exec_after (i : Instr) (s : State) : exec i s = .next (after [i] s) := by
  simp only [after, execAll, exec_eq, attempt]
  rfl

/-- What a word on a port decodes to, `none` where it is rejected. -/
def reads (ctx : Context) (port : Port) (w : Nat) : Option Instr := (decode ctx ⟨port, w⟩).toOption

/-- Block S2 (d) of 95_test_vectors.md, closed: index 6 is an edge with a gap of 6. -/
def closed : State := after (blockOps [0, 0, 0, 0, 0, 0, 3]) (State.initial levels)

/-- `closed` with its edge marked: one `false` and one `true` are pending. -/
def marked : State := after (List.replicate 7 .slice) closed

/-- `closed` scanned to the end. -/
def scanned : State := after [.bit, .bit] marked

/-- A closed block awaiting a byte of the frame of vector X1, 31 of its 32 bits taken, and a `false` pending. -/
def lastBit : State := { marked.accBits ((frameBits [0x41, 0x42, 0x43]).take 31) with pendf := 1 }

/-- A scan with a bit pending and the queue of one frame full. -/
def blocked : State := { marked with cfg := { levels with fqDepth := some 1 }, fq := [[0x41]] }

/-- The samples of the frame `[0x80]` at one sample per bit: the bits `1 1 0 0 0 0 0 0` and `0 0 0 0 0 0 0 1`. -/
def frameCodes : List Nat := [0, 8, 8, 0, 0, 0, 0, 0, 0, 0, 0, 0, 0, 0, 0, 0, 8]

/-! ### Well-formedness: the smoke test -/

theorem test_wf_sample_rejects_17_bits : (Instr.sample 65536).wellFormed Config.default = false := by decide

theorem test_wf_sample_last_rejects_17_bits : (Instr.sampleLast 65536).wellFormed Config.default = false := by decide

theorem test_wf_gap_rejects_min_gap : (Instr.gap 10).wellFormed Config.default = false := by decide

theorem test_wf_accepts_boundaries :
    (Instr.sample 65535).wellFormed Config.default ∧ (Instr.sampleLast 65535).wellFormed Config.default ∧
    (Instr.gap 11).wellFormed Config.default ∧ (Instr.rdreg 255).wellFormed Config.default := by decide

/-! ### Decoding: words written out from 30_encoding.md -/

theorem test_decode_nop : reads Context.fresh .command 0b001010101111001101 = some .nop := by decide

theorem test_decode_sample : reads Context.fresh .command 0b010010000000000000 = some (.sample 0x2000) := by decide

theorem test_decode_sample_last : reads Context.fresh .command 0b101000000000000001 = some (.sampleLast 0x8001) := by decide

theorem test_decode_end : reads Context.fresh .command 0b111010101111001101 = some .endBlock := by decide

theorem test_decode_pop : reads Context.fresh .frame 0b1 = some .pop := by decide

theorem test_decode_rdreg : reads Context.fresh .register 0b110 = some (.rdreg 6) := by decide

theorem test_decode_reset : reads Context.fresh .resetPin 0b1 = some .reset := by decide

/-- The header bytes of length 3 with and without the marker (vector EN9), of length 64 and of length 127 (vector EN8). -/
theorem test_decode_hdr :
    reads Context.fresh .wireByte 0b00000111 = some (.hdr 3 true) ∧
    reads Context.fresh .wireByte 0b00000110 = some (.hdr 3 false) ∧
    reads Context.fresh .wireByte 0b10000001 = some (.hdr 64 true) ∧
    reads Context.fresh .wireByte 0b11111111 = some (.hdr 127 true) := by decide

theorem test_decode_payload :
    reads { Context.fresh with awaiting := false } .wireByte 0b10100101 = some (.payload 0xA5) := by decide

theorem test_decode_gap : reads Context.fresh .wireGap 6700 = some (.gap 6700) := by decide

/-- The internal steps have no word: the datapath's turn is the step the state makes due (10_state.md R22). -/
theorem test_decode_datapath_turn :
    reads closed.context .datapath 0 = some .slice ∧ reads marked.context .datapath 0 = some .bit ∧
    reads scanned.context .datapath 0 = some .done := by decide +kernel

/-- Bits above a port's width, and lines that are low, are rejected by name. -/
theorem test_decode_rejects :
    decodeCommand 16 0b1000000000000000000 = .error (.wordTooWide .command) ∧
    decodeLine .frame .pop 0 = .error (.lineLow .frame) ∧
    decodeLine .resetPin .reset 2 = .error (.wordTooWide .resetPin) ∧
    decodeByte true 0b100000000 = .error (.wordTooWide .wireByte) := ⟨rfl, rfl, rfl, rfl⟩

theorem test_table_words :
    decodeTableWord 24 0x10008 = some (.sample 8) ∧ decodeTableWord 24 0x3ABCD = some .endBlock ∧
    decodeTableWord 8 1 = some .pop ∧ decodeTableWord 8 6 = some (.rdreg 6) ∧
    decodeTableWord 8 0x81 = some (.hdr 64 true) ∧ decodeTableWord 0 0 = none := by decide

theorem test_table_word_runs :
    (answer (step (State.reset.withFetchWord 24 0x12000))).map (fun t => (t.cnt, t.win)) = some (1, [1 / 4]) := by
  decide +kernel

theorem test_encode_samples :
    encode 16 (.sample 0x2000) = ⟨.command, 0x12000⟩ ∧ encode 16 (.sampleLast 0) = ⟨.command, 0x20000⟩ ∧
    encode 16 .endBlock = ⟨.command, 0x30000⟩ ∧ encode 16 (.hdr 64 true) = ⟨.wireByte, 0x81⟩ := by decide

/-! ### Operations: values worked out in the spec -/

/-- 40_block_control.md R102's example, vector BC3: the second sample fills the window. -/
theorem test_sample_fills_window :
    (after [.sample 3, .sample 5] (State.initial small)).env = [8] ∧
    (after [.sample 3, .sample 5] (State.initial small)).win = [5] := by decide +kernel

/-- Vector BC3: the block buffer is full. -/
theorem test_sample_held_when_full :
    (after [.sample 3, .sample 5, .sample 7] (State.initial bounded)).status = 0x18 ∧
    (after [.sample 3, .sample 5, .sample 7, .sample 9] (State.initial bounded)).resp = .held := by decide +kernel

/-- Vector BC6. -/
theorem test_sample_last_is_sample_then_end :
    after [.sample 3, .sampleLast 5] (State.initial small) = after [.sample 3, .sample 5, .endBlock] (State.initial small) := by
  decide +kernel

/-- Vector BC2: what is held in a scan, and what is not. -/
theorem test_held_in_scan :
    (after [.sample 1] closed).resp = .held ∧ (after [.sampleLast 1] closed).resp = .held ∧
    (after [.endBlock] closed).resp = .held ∧ (after [.nop] closed).resp = .performed := by decide +kernel

/-- Vector BC4: an empty block. -/
theorem test_done_empty_block :
    after [.endBlock, .done] (State.initial small) = { State.initial small with resp := .performed } := by decide +kernel

/-- Vector BC7: the queue across a block and a reset. -/
theorem test_pop_order :
    (after [.endBlock, .done, .pop] { State.initial small with fq := [[0x41], [0x42, 0x43]] }).resp = .frame (some [0x41]) ∧
    (after [.pop, .pop, .pop] { State.initial small with fq := [[0x41], [0x42, 0x43]] }).resp = .frame none := by
  decide +kernel

theorem test_reset_empties_queue :
    (after [.reset, .pop] { closed with fq := [[0x41], [0x42, 0x43]] }).resp = .frame none ∧
    (after [.reset] closed).phase = .fill := by decide +kernel

/-- Vectors EN11 and EN12. -/
theorem test_rdreg_status :
    (after [.rdreg 6] { closed with explen := 3, pay := [0x41], pbits := 5 }).resp = .data 0x000083A1 ∧
    (after [.rdreg 6] { closed with explen := 2, pay := [0xAA], pbits := 3 }).resp = .data 0x00008261 := by decide +kernel

/-- Vectors S2 (d) and G2: the edge at index 6 has a gap of 6, which is `0 1`. -/
theorem test_slice_marks_edge :
    marked.pendf = 1 ∧ marked.pendt = true ∧ marked.last = 6 ∧ marked.idx = 7 := by decide +kernel

/-- Vectors S2 (a) and S2 (c): a value equal to the threshold is no edge, and index 0 is never marked. -/
theorem test_slice_strict :
    (after [.slice, .slice] (after (blockOps [0, 1]) (State.initial levels))).pendt = false ∧
    (after [.slice] (after (blockOps [5, 0, 0, 0]) (State.initial levels))).pendt = false := by decide +kernel

/-- 42_slicer_gap.md R147's example. -/
theorem test_bit_false_then_true :
    (after [.bit] { marked with pbits := 1, pbyte := 1 }).pbits = 2 ∧
    (after [.bit, .bit] { marked with pbits := 1, pbyte := 1 }).pbyte = 5 := by decide +kernel

/-- Vector X1: the frame appears with its 32nd bit and not before. -/
theorem test_bit_completes_frame :
    lastBit.fq = [] ∧ lastBit.pbyte = 0x43 ∧ (after [.bit] lastBit).fq = [[0x41, 0x42, 0x43]] := by decide +kernel

/-- Vectors A3 and A4, at the `BIT` step that completes the byte; a step that completes another byte is held. -/
theorem test_hdr_lengths :
    (after [.hdr 3 false] { marked with pbits := 7, pbyte := 0x06 }).explen = 3 ∧
    (after [.hdr 127 true] { marked with pendf := 0, pbits := 7, pbyte := 0x7F }).explen = 127 ∧
    (after [.hdr 3 true] { marked with pbits := 7, pbyte := 0x06 }).resp = .held := by decide +kernel

/-- Vector X1: the payload byte `0x43` completes the frame with the 32nd bit, and only as payload. -/
theorem test_payload_byte :
    (after [.payload 0x43] lastBit).fq = [[0x41, 0x42, 0x43]] ∧ (after [.payload 0x42] lastBit).resp = .held ∧
    (after [.hdr 0x21 true] lastBit).resp = .held := by decide +kernel

/-- Vector A6: a payload byte `0x01` is stored, not taken as a header. -/
theorem test_frames_back_to_back :
    (closed.accBits (frameBits [0x01] ++ frameBits [0x02, 0x03])).fq = [[0x01], [0x02, 0x03]] := by decide +kernel

/-- Vector X4. -/
theorem test_gap_examples : gapBits 3300 50 = [true] ∧ gapBits 3300 6700 = [false, false, true] := by decide +kernel

/-- 10_state.md R21: a gap given from outside writes no element. -/
theorem test_gap_only_answers :
    after [.gap 6] (State.initial small) = { State.initial small with resp := .bits [false, true] } ∧
    after [.gap 1] marked = { marked with resp := .bits [true] } ∧
    after [.gap 1] (State.initial small) = { State.initial small with resp := .bits [] } := by decide +kernel

theorem test_gap_one_more_sample : gapBits 3300 6600 = [false, true] ∧ gapBits 3300 6601 = [false, false, true] := by
  decide +kernel

/-- Vector E2, the integer test at indices 12 and 11. -/
theorem test_integer_test :
    integerCandidate { Config.default with w := 4 } [0, 0, 0, 0, 0, 0, 0, 0, 0, 8, 16, 24, 32, 24, 16, 8, 0, 0, 0, 0, 0] 12 = true ∧
    integerCandidate { Config.default with w := 4 } [0, 0, 0, 0, 0, 0, 0, 0, 0, 8, 16, 24, 32, 24, 16, 8, 0, 0, 0, 0, 0] 11 = false := by
  decide +kernel

/-! ### Witnesses: states and operands that meet the hypotheses of the statements -/

/-- A refused `SAMPLE` word on a silent command port does nothing, like a `NOP`. -/
theorem witness_NopChangesNothing :
    65535 < 2 ^ (State.initial small).cfg.aw ∧ (⟨false, false, 0x10003, true, 0, true⟩ : Edge).cValid = false ∧
    edgeOps ⟨false, false, 0x10003, true, 0, true⟩ closed = [.pop, .slice] := by decide +kernel

theorem witness_SampleEntersWindow_room :
    let s := after [.sample 3, .sample 5] (State.initial bounded)
    s.phase = .fill ∧ (∀ n, s.cfg.nmax = some n → s.cnt < n) ∧ s.win.length + 1 = s.cfg.w ∧ 65535 < 2 ^ s.cfg.aw :=
  ⟨by decide +kernel, (below_iff _ _).mp (by decide +kernel), by decide +kernel⟩

theorem witness_SampleEntersWindow_held :
    closed.phase = .scan ∧ bounded.nmax = some 3 ∧ 3 ≤ (after [.sample 3, .sample 5, .sample 7] (State.initial bounded)).cnt := by
  decide +kernel

theorem witness_SampleLastIsSampleThenEnd :
    let s := after [.sample 3, .sample 5] (State.initial bounded)
    s.phase = .fill ∧ (∀ n, s.cfg.nmax = some n → s.cnt < n) ∧ 65535 < 2 ^ s.cfg.aw ∧ closed.phase = .scan :=
  ⟨by decide +kernel, (below_iff _ _).mp (by decide +kernel), by decide +kernel⟩

theorem witness_EndClosesBlock :
    (State.initial small).phase = .fill ∧ FillOk (State.initial small) ∧ closed.phase = .scan ∧
    65535 < 2 ^ (State.initial small).cfg.aw := by decide +kernel

theorem witness_DoneDiscardsBlock :
    (scanned.phase = .scan ∧ scanned.idx = scanned.env.length ∧ scanned.pendf = 0 ∧ scanned.pendt = false) ∧
    (State.initial small).phase = .fill ∧ closed.idx ≠ closed.env.length ∧ 0 < marked.pendf ∧ marked.pendt = true := by
  decide +kernel

theorem witness_PopReturnsOldestFrame : blocked.fq = [0x41] :: [] ∧ closed.fq = [] := by decide +kernel

theorem witness_RdregReadsRegisters : 2 ^ 32 - 1 < 2 ^ 32 ∧ (State.initial small).cnt < 2 ^ 32 ∧ 7 < 8 := by decide

theorem witness_StatusPacksFields : AccumulatorOk lastBit ∧ 0 < lastBit.explen ∧ 0 < lastBit.pay.length := by decide +kernel

theorem witness_SliceExaminesOneIndex :
    (closed.phase = .scan ∧ closed.idx < closed.env.length ∧ closed.pendf = 0 ∧ closed.pendt = false) ∧
    (State.initial small).phase = .fill ∧ scanned.env.length ≤ scanned.idx ∧ 0 < marked.pendf ∧ marked.pendt = true := by
  decide +kernel

theorem witness_BitEntersPartialByte_false :
    (marked.phase = .scan ∧ (∀ n, marked.cfg.fqDepth = some n → marked.fq.length < n)) ∧
    marked.pbits < 7 ∧ marked.pbyte.toNat < 2 ^ marked.pbits ∧ 0 < marked.pendf :=
  ⟨⟨by decide +kernel, (below_iff _ _).mp (by decide +kernel)⟩, by decide +kernel⟩

theorem witness_BitEntersPartialByte_true :
    let s := { marked with pendf := 0, pbits := 6, pbyte := 0x3F, cfg := slots, fq := [[1]] }
    (s.phase = .scan ∧ (∀ n, s.cfg.fqDepth = some n → s.fq.length < n)) ∧
    s.pbits < 7 ∧ s.pbyte.toNat < 2 ^ s.pbits ∧ s.pendf = 0 ∧ s.pendt = true :=
  ⟨⟨by decide +kernel, (below_iff _ _).mp (by decide +kernel)⟩, by decide +kernel⟩

theorem witness_BitCompletesByte_emits :
    (lastBit.phase = .scan ∧ (∀ n, lastBit.cfg.fqDepth = some n → lastBit.fq.length < n)) ∧
    lastBit.pbits = 7 ∧ lastBit.pbyte.toNat < 2 ^ 7 ∧ 0 < lastBit.pendf ∧ 0 < lastBit.explen ∧
    lastBit.pay.length + 1 = lastBit.explen :=
  ⟨⟨by decide +kernel, (below_iff _ _).mp (by decide +kernel)⟩, by decide +kernel⟩

theorem witness_BitCompletesByte_header_and_payload :
    let s := { marked with pendf := 0, pbits := 7, pbyte := 0x7F }
    let t := { s with explen := 3, pay := [0x41] }
    (s.phase = .scan ∧ t.phase = .scan ∧ (∀ n, s.cfg.fqDepth = some n → s.fq.length < n)) ∧
    s.pbits = 7 ∧ s.pbyte.toNat < 2 ^ 7 ∧ s.pendt = true ∧ s.explen = 0 ∧
    t.pbits = 7 ∧ t.pbyte.toNat < 2 ^ 7 ∧ t.pendt = true ∧ 0 < t.explen ∧ t.pay.length + 1 ≠ t.explen :=
  ⟨⟨by decide +kernel, by decide +kernel, (below_iff _ _).mp (by decide +kernel)⟩, by decide +kernel⟩

theorem witness_BitHeldWithoutRoom :
    (State.initial small).phase = .fill ∧ (closed.pendf = 0 ∧ closed.pendt = false) ∧
    blocked.cfg.fqDepth = some 1 ∧ 1 ≤ blocked.fq.length := by decide +kernel

theorem witness_HdrSetsExpectedLength :
    let s := { marked with pendf := 0, pbits := 7, pbyte := 0x7F }
    s.phase = .scan ∧ (∀ n, s.cfg.fqDepth = some n → s.fq.length < n) ∧ s.pendt = true ∧ s.pbits = 7 ∧
    s.pbyte.toNat < 2 ^ 7 ∧ s.explen = 0 ∧
    s.pbyte.toNat + (if 0 < s.pendf then 0 else 128) = 2 * (127 : BitVec 7).toNat + true.toNat :=
  ⟨by decide +kernel, (below_iff _ _).mp (by decide +kernel), by decide +kernel⟩

theorem witness_PayloadIsCollected :
    let s := { marked with pbits := 7, pbyte := 0x43, explen := 127, pay := List.replicate 126 0, cfg := slots, fq := [[1]] }
    s.phase = .scan ∧ (∀ n, s.cfg.fqDepth = some n → s.fq.length < n) ∧ 0 < s.pendf ∧ s.pbits = 7 ∧
    s.pbyte.toNat < 2 ^ 7 ∧ 0 < s.explen ∧ s.pbyte.toNat + (if 0 < s.pendf then 0 else 128) = (0x43 : Byte).toNat :=
  ⟨by decide +kernel, (below_iff _ _).mp (by decide +kernel), by decide +kernel⟩

theorem witness_WireByteActsByItsBits :
    (closed.pbits = 0 ∧ closed.pbyte = 0) ∧
    (lastBit.enabled .bit = true ∧ lastBit.pbits = 7 ∧ 0 < lastBit.explen) ∧
    ({ lastBit with explen := 0 }.enabled .bit = true ∧ { lastBit with explen := 0 }.enabled (.hdr 0x21 true) = true) ∧
    blocked.enabled .bit = false := by decide +kernel

theorem witness_GapReturnsItsBits :
    marked.cfg.legal = true ∧ marked.cfg.mingap < 1 ∧
    (State.initial small).cfg.legal = true ∧ 1 ≤ (State.initial small).cfg.mingap := by decide +kernel

theorem witness_StepRunsDecodedOperation :
    let s := { State.initial small with requests := [⟨.command, 0x1FFFF⟩, ⟨.frame, 1⟩] }
    decode s.context ⟨.command, 0x1FFFF⟩ = .ok (.sample 65535) ∧ (Instr.sample 65535).wellFormed s.cfg = true :=
  ⟨rfl, by decide⟩

theorem witness_DatapathStepFollowsSequencer :
    (State.initial small).requests = [] ∧ (State.initial small).phase = .fill ∧
    marked.requests = [] ∧ marked.phase = .scan ∧ 0 < marked.pendf ∧
    closed.requests = [] ∧ closed.phase = .scan ∧ closed.pendf = 0 ∧ closed.pendt = false ∧ closed.idx < closed.env.length ∧
    scanned.requests = [] ∧ scanned.phase = .scan ∧ scanned.pendf = 0 ∧ scanned.pendt = false ∧
    scanned.env.length ≤ scanned.idx := by decide +kernel

theorem witness_IllegalConfigurationIsNotBuilt :
    { small with w := 0 }.w = 0 ∧ { small with period := 2 ^ 32 }.period ≥ 2 ^ 32 ∧
    State.build small = some (State.initial small) := ⟨rfl, by decide, rfl⟩

/-- The smallest and the largest values of a legal configuration. -/
theorem witness_IllegalConfigurationIsNotBuilt_legal :
    let c : Config := ⟨1, 0, 0, 1, 0, 2 ^ 32 - 1, 16, 15, some (2 ^ 32 - 1), some 1⟩
    1 ≤ c.w ∧ 1 ≤ c.thrDen ∧ 1 ≤ c.period ∧ c.w < 2 ^ 32 ∧ c.g < 2 ^ 32 ∧ c.thrNum < 2 ^ 32 ∧ c.thrDen < 2 ^ 32 ∧
    c.mingap < 2 ^ 32 ∧ c.period < 2 ^ 32 ∧ (∀ n ∈ c.nmax, 1 ≤ n ∧ n < 2 ^ 32) ∧ (∀ n ∈ c.fqDepth, 1 ≤ n) ∧
    (State.build c).isSome = true := by decide

theorem witness_StepKeepsInvariant :
    let s := { State.initial small with requests := [⟨.command, 0x30000⟩, ⟨.frame, 1⟩] }
    BlockInv s ∧ step s = .next { after [.endBlock] (State.initial small) with requests := [⟨.frame, 1⟩] } :=
  ⟨by decide +kernel, rfl⟩

theorem witness_RunsNeverStop :
    ∀ r ∈ [Request.mk .command 0x3FFFF, ⟨.frame, 1⟩, ⟨.resetPin, 1⟩, ⟨.wireByte, 255⟩, ⟨.register, 9⟩],
      (r.port = .command → r.word < 4 * 2 ^ small.aw) ∧ (r.port = .frame → r.word = 1) ∧
      (r.port = .resetPin → r.word = 1) ∧ (r.port = .wireByte → r.word < 256) := by decide

theorem witness_ElementsChangeOnlyByTheirWriters :
    exec .endBlock (State.initial small) = .next (after [.endBlock] (State.initial small)) ∧
    (State.initial small).phase = .fill ∧ (after [.endBlock] (State.initial small)).phase = .scan ∧
    exec .done scanned = .next (after [.done] scanned) ∧ scanned.phase = .scan ∧
    (after [.done] scanned).phase = .fill ∧ (after [.done] scanned).env ≠ scanned.env ∧
    (after [.done] scanned).cnt ≠ scanned.cnt ∧ (after [.done] scanned).last ≠ scanned.last ∧
    (after [.done] scanned).idx ≠ scanned.idx ∧ (after [.done] scanned).pbits ≠ scanned.pbits ∧
    (after [.done] scanned).pbyte ≠ scanned.pbyte :=
  ⟨exec_after _ _, by decide, by decide +kernel, exec_after _ _, by decide +kernel⟩

theorem witness_ScanAdvancesByOneIndex :
    BlockInv closed ∧ closed.phase = .scan ∧ exec .slice closed = .next (after [.slice] closed) ∧
    (after [.slice] closed).phase = .scan ∧ marked.bitPending = true :=
  ⟨by decide +kernel, by decide +kernel, exec_after _ _, by decide +kernel⟩

theorem witness_OneDatapathStepIsEnabled :
    (BlockInv closed ∧ closed.phase = .scan ∧ closed.enabled .slice = true) ∧
    (BlockInv blocked ∧ blocked.phase = .scan ∧ 0 < blocked.pendf ∧ blocked.cfg.fqDepth = some blocked.fq.length) :=
  ⟨by decide +kernel, by decide +kernel⟩

theorem witness_FullQueueHoldsTheScan :
    (blocked.phase = .scan ∧ 0 < blocked.pendf ∧ blocked.fq ≠ [] ∧ blocked.cfg.fqDepth = some blocked.fq.length) ∧
    exec .bit blocked = .next (after [.bit] blocked) ∧ exec .pop blocked = .next (after [.pop] blocked) :=
  ⟨by decide +kernel, exec_after _ _, exec_after _ _⟩

theorem witness_NothingSurvivesABlock :
    let s₁ := scanned
    let s₂ := { scanned with env := [], idx := 0, win := [1], explen := 3, pay := [0x41], pbits := 5 }
    s₁.cfg = s₂.cfg ∧ s₁.requests = s₂.requests ∧ s₁.fq = s₂.fq ∧ s₁.enabled .done = true ∧ s₂.enabled .done = true ∧
    exec .done s₁ = .next (after [.done] s₁) ∧ exec .done s₂ = .next (after [.done] s₂) :=
  ⟨rfl, rfl, rfl, by decide +kernel, by decide +kernel, exec_after _ _, exec_after _ _⟩

theorem witness_ShortBlockYieldsNothing :
    let s := after [.sample 3] (State.initial small)
    BlockInv s ∧ s.phase = .fill ∧ s.cnt < s.cfg.w := by decide +kernel

theorem witness_CapacitiesSuffice :
    let s := after (blockOps [0, 9, 0] ++ [.slice, .slice]) (State.initial bounded)
    BlockInv s ∧ s.cfg.nmax = some 3 ∧ s.cfg.w ≤ 3 ∧ 2 ≤ 3 - s.cfg.w + 1 := by decide +kernel

theorem witness_DecodeOfEncodeIsIdentity :
    Context.fresh.aw = Config.default.aw ∧ (Instr.hdr 127 true).wellFormed Config.default = true ∧
    Context.fresh.admits (.hdr 127 true) = true ∧ marked.context.aw = marked.cfg.aw ∧
    marked.context.admits .bit = true := by decide +kernel

theorem witness_EncodeOfDecodeIsIdentity :
    decode Context.fresh ⟨.wireByte, 255⟩ = .ok (.hdr 127 true) ∧ Port.wireByte ≠ Port.datapath ∧
    0x3FFFF < 4 * 2 ^ Context.fresh.aw ∧ Port.command ≠ Port.datapath ∧
    decode Context.fresh ⟨.command, 0x3ABCD⟩ = .ok .endBlock ∧ decode Context.fresh ⟨.command, 0x1FFFF⟩ = .ok (.sample 65535) :=
  ⟨rfl, by decide, by decide, by decide, rfl, rfl⟩

theorem witness_EnvelopeHasClosedForm :
    let s := State.initial bounded
    let codes := [3, 5, 7]
    s.cfg.legal = true ∧ s.phase = .fill ∧ s.cnt = 0 ∧ s.win = [] ∧ s.env = [] ∧
    (∀ n, s.cfg.nmax = some n → codes.length ≤ n) ∧ 1 < codes.length + 1 - s.cfg.w :=
  ⟨by decide, rfl, rfl, rfl, rfl, (atMost_iff _ _).mp (by decide +kernel), by decide⟩

theorem witness_RunningSumIsEquivalent :
    (State.initial levels).cfg.legal = true ∧ (State.initial levels).win = [] ∧ (State.initial levels).env = [] := by decide +kernel

theorem witness_IntegerTestIsRationalTest : small.legal = true ∧ 2 < [1, 2, 3].length := by decide

/-- Values below, at and above the mean of `[0, 1, 2]`; the constant trace of one value. -/
theorem witness_RectifierClampsAtTheMean :
    let env : List Rat := [0, 1, 2]
    2 < env.length ∧ env.getD 0 0 ≤ env.sum / env.length ∧ env.getD 1 0 ≤ env.sum / env.length ∧
    env.sum / env.length < env.getD 2 0 ∧ env ≠ [] ∧ levels.legal = true ∧ 0 < 1 := by decide +kernel

theorem witness_GapLoopHasClosedForm : 1 ≤ 1 ∧ 1 ≤ 3300 := by decide

theorem witness_GapToleranceIsOneSided : (1 ≤ 4 ∧ 1 ≤ 8 ∧ 1 ≤ 2) ∧ (2 - 1) * 4 < 5 ∧ 8 ≤ 2 * 4 := by decide

theorem witness_BitStepsDeliverTheGap :
    marked.cfg.legal = true ∧ marked.phase = .scan ∧ marked.cfg.fqDepth = none ∧
    marked.pendf = (8 - 1) / marked.cfg.period ∧ marked.pendt = true := by decide +kernel

/-- Vector S1: a run of four indices above the threshold. -/
theorem witness_LongPulseIsMarkedRepeatedly :
    { levels with mingap := 2 }.legal = true ∧
    (∀ j, 3 ≤ j → j < 3 + 4 →
      max 0 (([0, 0, 0, 10, 10, 10, 10] : List Rat).getD j 0 - 5 / 2) > ((1 : Nat) : Rat) / (2 : Nat)) ∧
    3 - 0 > { levels with mingap := 2 }.mingap := by
  refine ⟨by decide, fun j h₁ h₂ => ?_, by decide⟩
  obtain rfl | rfl | rfl | rfl : j = 3 ∨ j = 4 ∨ j = 5 ∨ j = 6 := by omega
  all_goals decide +kernel

theorem witness_BlockBitsAreBounded : levels.legal = true ∧ (blockBits levels [0, 0, 0, 0, 0, 0, 3]).length = 2 := by decide +kernel

theorem witness_AccumulatorInvariantsHold : AccumulatorOk lastBit ∧ (lastBit.accBit false).fq ≠ lastBit.fq := by decide +kernel

theorem witness_WireFormatRoundTrips :
    FreshAccumulator closed ∧ ∀ f ∈ [[1], List.replicate 127 (0 : Byte)], 1 ≤ f.length ∧ f.length ≤ 127 := by decide +kernel

theorem witness_FrameAppearsWithItsLastBit :
    FreshAccumulator closed ∧ 1 ≤ (List.replicate 127 (0 : Byte)).length ∧ (List.replicate 127 (0 : Byte)).length ≤ 127 := by
  decide +kernel

theorem witness_ZeroLengthHeadersAreSkipped :
    FreshAccumulator closed ∧ ∀ b ∈ ([0x01, 0x00, 0x01] : List Byte), b.toNat ≤ 1 := by decide +kernel

/-- The block of `frameCodes` delivers the frame `[0x80]`. -/
theorem test_frame_codes : decodeBlock slots frameCodes = [[0x80]] := by decide +kernel

theorem witness_BlockRunComputesDecodeBlock :
    let s := { State.initial slots with requests := requestsOf 16 (blockOps frameCodes) }
    BlockInv s ∧ s.phase = .fill ∧ s.cnt = 0 ∧ (∀ d ∈ frameCodes, d < 2 ^ s.cfg.aw) ∧
    (∀ n, s.cfg.nmax = some n → frameCodes.length ≤ n) ∧
    (∀ n, s.cfg.fqDepth = some n → s.fq.length + (decodeBlock s.cfg frameCodes).length < n) ∧
    s.requests = requestsOf s.cfg.aw (blockOps frameCodes) :=
  ⟨by decide +kernel, rfl, rfl, by decide, (atMost_iff _ _).mp (by decide +kernel), (below_iff _ _).mp (by decide +kernel), rfl⟩

/-- A block with a `POP`, an `RDREG` and the datapath's turns mixed in. -/
def mixed : State :=
  { State.initial levels with
    requests := requestsOf 16 (.pop :: blockOps [0, 9]) ++ [⟨.register, 6⟩, ⟨.datapath, 0⟩, ⟨.frame, 1⟩, ⟨.datapath, 0⟩,
      ⟨.datapath, 0⟩, ⟨.datapath, 0⟩] }

theorem witness_InterleavedBlockDeliversItsFrames :
    BlockInv mixed ∧ mixed.phase = .fill ∧ mixed.cnt = 0 ∧ (∀ d ∈ [0, 9], d < 2 ^ mixed.cfg.aw) ∧
    (∀ n, mixed.cfg.nmax = some n → [0, 9].length ≤ n) ∧
    (∀ r ∈ mixed.requests, r.port = .command ∨ r.port = .frame ∨ r.port = .register ∨ r.port = .datapath) ∧
    mixed.requests.filter (fun r => decide (r.port = .command)) = requestsOf mixed.cfg.aw (blockOps [0, 9]) ∧
    [0, 9] = [0] ++ [9] ∧
    ((answer (Host.Core.run Sys2Proof.core mixed.requests.length mixed)).any (fun t => decide (t.phase = .fill))) = true :=
  ⟨by decide +kernel, rfl, rfl, by decide, (atMost_iff _ _).mp (by decide +kernel), by decide, by decide, rfl, by decide +kernel⟩

/-- The same block ended by `SAMPLE_LAST`. -/
theorem witness_InterleavedBlockDeliversItsFrames_last :
    let s := { mixed with requests := requestsOf 16 [.sample 0, .pop, .sampleLast 9] ++ List.replicate 4 ⟨.datapath, 0⟩ }
    BlockInv s ∧ s.requests.filter (fun r => decide (r.port = .command)) =
      requestsOf s.cfg.aw (([0] : List Nat).map .sample ++ [.sampleLast 9]) ∧
    ((answer (Host.Core.run Sys2Proof.core s.requests.length s)).any (fun t => decide (t.phase = .fill))) = true := by
  decide +kernel

theorem witness_ReadyMeansPerformed :
    0x3FFFF < 4 * 2 ^ closed.cfg.aw ∧ closed.cReady 0x3FFFF = false ∧ (State.initial small).cReady 0x3FFFF = true := by
  decide +kernel

theorem witness_EdgePerformsItsRequests :
    edgeOps ⟨false, true, 0x0ABCD, true, 0, true⟩ closed = [.nop, .pop] ++ .slice :: [] ∧
    edgeOps ⟨false, true, 0x0ABCD, true, 0, false⟩ closed = [.nop] ++ .pop :: [] ∧
    edgeOps ⟨false, true, 0x10003, true, 0, true⟩ (State.initial small) = [] ++ .sample 3 :: [.pop] ∧
    (decode (State.initial small).context ⟨.command, 0x10003⟩).toOption = some (.sample 3) ∧
    (State.initial small).enabled (.sample 3) = true ∧
    edgeOps ⟨true, true, 0x10003, true, 0, true⟩ closed = [.reset] := by decide +kernel

/-- The three cases of `PopMeetsDatapathStep`: a `BIT` that emits into an empty queue, a `BIT` on a full queue, and a `SLICE`. -/
theorem witness_PopMeetsDatapathStep :
    (exec .bit lastBit = .next (after [.bit] lastBit) ∧ lastBit.fq = [] ∧
      (after [.bit] lastBit).fq = [[0x41, 0x42, 0x43]]) ∧
    (blocked.phase = .scan ∧ 0 < blocked.pendf ∧ blocked.fq ≠ [] ∧ blocked.cfg.fqDepth = some blocked.fq.length) ∧
    ((after [.slice] closed).fq = closed.fq ∧ QueueOk closed) :=
  ⟨⟨exec_after _ _, by decide +kernel, by decide +kernel⟩, by decide +kernel, by decide +kernel⟩

/-- 60_exceptions.md R185 (c): at one edge the `POP` on an empty queue answers before the `BIT` emits, and a `BIT` on a full queue waits. -/
theorem test_edge_pop_and_bit :
    ((answer (clockEdge ⟨false, false, 0, true, 0, true⟩ lastBit)).map (·.fq)) = some [[0x41, 0x42, 0x43]] ∧
    ((answer (clockEdge ⟨false, false, 0, true, 0, true⟩ blocked)).map (fun t => (t.fq, t.pendf))) = some ([], 1) := by
  decide +kernel

theorem witness_CommandsCommuteWithPop :
    (State.initial small).enabled (.sample 3) = true ∧ closed.enabled (.sampleLast 3) = false := by decide +kernel

theorem witness_FramePortShowsHead : QueueOk { closed with fq := [List.replicate 127 0xFF, [1]] } := by decide +kernel

theorem witness_LanesShareOnlyTheQueue :
    let sys : Lanes := ⟨[closed, marked], [[0x41]]⟩
    sys.lanes[1]? = some marked ∧ 0 ≠ 1 := ⟨rfl, by decide⟩

end Sys2Proof.Tests
end

section
/-!
PROOFS. The scope of the block (00_scope.md): which configurations are built, that no operation fails and a step runs what its request
decodes to, which operations write which element, and that a finite `NMAX` bounds the stores.
-/

namespace Sys2Proof.Scope

open Sys2Proof.Machine Sys2Proof.Safety

/-! ### What an operation can do -/

/-- The effects an operation `i` can have on `s`, with those that act alike taken together: an answer alone, one case for each way of
filling, closing, scanning and clearing the block, and the `BIT` step under each of its names (log 7). -/
inductive Effect (s : State) : Instr → State → Prop where
  /-- The operation is held, or is `NOP`, `RDREG` or `GAP`, which only answer. -/
  | answer (i : Instr) (r : Response) : Effect s i (s.respond r)
  | pop : Effect s .pop ({ s with fq := s.fq.tail }.respond (.frame s.fq.head?))
  | sample (d : Nat) : s.canSample = true → Effect s (.sample d) ((s.takeSample d).respond .performed)
  | sampleLast (d : Nat) : s.canSample = true →
      Effect s (.sampleLast d) ((s.takeSample d).closeBlock.respond .performed)
  | endBlock : s.canEnd = true → Effect s .endBlock (s.closeBlock.respond .performed)
  | done : s.canDone = true → Effect s .done ({ s.blockClear with phase := .fill }.respond .performed)
  | reset : Effect s .reset ({ s.blockClear with phase := .fill, fq := [] }.respond .performed)
  | slice : s.canSlice = true → Effect s .slice (s.sliceIndex.respond .performed)
  | bitStep (i : Instr) : IsBitStep i → s.canBit = true → Effect s i (s.deliverBit.respond .performed)

/-- Every next state of an operation is one of its effects. -/
theorem effect_of_exec {i : Instr} {s t : State} (h : exec i s = .next t) : Effect s i t := by
  obtain ⟨he, rfl⟩ | ⟨_, rfl⟩ := exec_cases h
  · cases i with
    | nop => exact .answer _ _
    | sample d => exact .sample d he
    | sampleLast d => exact .sampleLast d he
    | endBlock => exact .endBlock he
    | done => exact .done he
    | pop => exact .pop
    | rdreg n => exact .answer _ _
    | reset => exact .reset
    | slice => exact .slice he
    | bit => exact .bitStep _ (.inl rfl) he
    | hdr len mark => exact .bitStep _ (.inr (.inr ⟨len, mark, rfl⟩)) ((canTakeHeader_iff s _).1 he).1
    | payload v => exact .bitStep _ (.inr (.inl ⟨v, rfl⟩)) ((canTakePayload_iff s _).1 he).1
    | gap g => exact .answer _ _
  · exact .answer _ _

/-- Settles O18: an operation is performed or held, and only the held one answers `held`. -/
theorem operationsNeverFail : Obligations.OperationsNeverFail := by
  intro i s
  cases he : s.enabled i with
  | true =>
    have hne := performed_resp_ne_held i s
    exact ⟨performed i s, exec_of_enabled he, by simp [hne], fun hr => absurd hr hne⟩
  | false => exact ⟨s.hold, exec_of_not_enabled he, by simp, fun _ => rfl⟩

/-! ### The turn of a waiting request -/

/-- The first waiting request is the one that is fetched. -/
theorem fetch_of_requests_cons {s : State} {r : Request} {rest : List Request} (h : s.requests = r :: rest) :
    s.fetch = decode s.context r := by
  simp [State.fetch, State.nextRequest, h]

/-- The first waiting request is the one whose turn is taken. -/
theorem turnTaken_of_requests_cons {s : State} {r : Request} {rest : List Request} (h : s.requests = r :: rest) :
    s.turnTaken = { s with requests := rest } := by
  simp [State.turnTaken, h]

/-- Settles O19; that the operation is well formed is not needed. -/
theorem stepRunsDecodedOperation : Obligations.StepRunsDecodedOperation := by
  intro s r rest i hs hd _
  rw [step_of_fetch ((fetch_of_requests_cons hs).trans hd), turnTaken_of_requests_cons hs]

/-! ### Building a block -/

/-- The bounds of 00_scope.md R6 and R7, one by one. -/
theorem legal_iff (c : Config) :
    c.legal = true ↔
      (1 ≤ c.w ∧ 1 ≤ c.thrDen ∧ 1 ≤ c.period) ∧
      (c.w < 2 ^ 32 ∧ c.g < 2 ^ 32 ∧ c.thrNum < 2 ^ 32 ∧ c.thrDen < 2 ^ 32 ∧ c.mingap < 2 ^ 32 ∧ c.period < 2 ^ 32) ∧
      (∀ n, c.nmax = some n → 1 ≤ n ∧ n < 2 ^ 32) ∧ (∀ n, c.fqDepth = some n → 1 ≤ n) := by
  simp [Config.legal, Option.all_eq_true, and_assoc]

theorem legal_w_pos {c : Config} (h : c.legal = true) : 1 ≤ c.w := ((legal_iff c).1 h).1.1

/-- A block is built exactly from a legal configuration, and it is the one just reset. -/
theorem build_eq_some_iff (c : Config) (s : State) :
    State.build c = some s ↔ c.legal = true ∧ State.initial c = s := by
  simp [State.build]

theorem build_eq_none_iff (c : Config) : State.build c = none ↔ ¬c.legal = true := by
  simp [State.build]

/-- Empty stores agree with each other. -/
theorem storesOk_empty {t : State} (hw : 1 ≤ t.cfg.w) (hcnt : t.cnt = 0) (hwin : t.win = []) (henv : t.env = []) :
    StoresOk t := by
  rw [StoresOk, hcnt, hwin, henv]
  have hlength : ([] : List Rat).length = 0 + 1 - t.cfg.w := by rw [List.length_nil]; omega
  exact ⟨(atMost_iff _ _).2 fun _ _ => Nat.zero_le _, by simp, hlength, by simp, by simp⟩

/-- A block just reset satisfies the invariant when its configuration is legal (10_state.md R34). -/
theorem initial_blockInv {c : Config} (h : c.legal = true) : BlockInv (State.initial c) := by
  have hstores : StoresOk (State.initial c) := storesOk_empty (legal_w_pos h) rfl rfl rfl
  have hscan : ScanOk (State.initial c) := ⟨Nat.zero_le _, .inl rfl, by simp⟩
  have haccumulator : AccumulatorOk (State.initial c) :=
    ⟨Nat.zero_le _, Nat.one_pos, Nat.zero_le _, fun _ => rfl, fun h0 => absurd h0 (Nat.lt_irrefl 0)⟩
  have hqueue : QueueOk (State.initial c) := ⟨(atMost_iff _ _).2 fun _ _ => Nat.zero_le _, by simp⟩
  exact ⟨h, hstores, hscan, Nat.zero_le _, haccumulator, by simp, hqueue⟩

/-- `RESET` of a block just reset leaves every element as it is (40_block_control.md R108). -/
theorem exec_reset_initial (c : Config) :
    ∃ t, exec .reset (State.initial c) = .next t ∧ SameBlock (State.initial c) t :=
  ⟨_, exec_of_enabled rfl, rfl⟩

/-- Settles O22, by the bounds of `legal_iff` and the invariant of the state just reset. -/
theorem illegalConfigurationIsNotBuilt : Obligations.IllegalConfigurationIsNotBuilt := by
  intro c
  refine ⟨fun hout => ?illegal, ?legal, ?built⟩
  case illegal =>
    rw [build_eq_none_iff]
    intro h
    obtain ⟨⟨hw, hden, hper⟩, ⟨bw, bg, bnum, bden, bmin, bper⟩, _⟩ := (legal_iff c).1 h
    omega
  case legal =>
    intro hw hden hper bw bg bnum bden bmin bper hnmax hdepth
    have h : c.legal = true := (legal_iff c).2 ⟨⟨hw, hden, hper⟩, ⟨bw, bg, bnum, bden, bmin, bper⟩, hnmax, hdepth⟩
    exact ⟨_, (build_eq_some_iff c _).2 ⟨h, rfl⟩, exec_reset_initial c⟩
  case built =>
    intro s hs
    obtain ⟨h, rfl⟩ := (build_eq_some_iff c s).1 hs
    exact ⟨rfl, rfl, rfl, initial_blockInv h⟩

/-! ### The writers of the elements -/

/-- A byte keeps the queue as it is, or appends one frame (43_deserializer_frame.md R163). -/
theorem accByte_fq (s : State) (v : Byte) : (s.accByte v).fq = s.fq ∨ ∃ f, (s.accByte v).fq = s.fq ++ [f] := by
  rcases accByte_cases s v with ⟨_, h⟩ | ⟨_, _, h⟩ | ⟨_, _, h⟩
  · exact .inl (by rw [h])
  · exact .inl (by rw [h])
  · exact .inr ⟨_, by rw [h]⟩

/-- A bit changes the queue only through the byte it completes (43_deserializer_frame.md R161). -/
theorem accBit_fq (s : State) (b : Bool) : (s.accBit b).fq = s.fq ∨ ∃ f, (s.accBit b).fq = s.fq ++ [f] := by
  rcases accBit_cases s b with ⟨_, h⟩ | ⟨_, h⟩
  · exact .inl (by rw [h])
  · rw [h]; exact accByte_fq _ _

/-- `BIT` keeps the queue as it is, or appends one frame (10_state.md R29). -/
theorem deliverBit_fq (s : State) : s.deliverBit.fq = s.fq ∨ ∃ f, s.deliverBit.fq = s.fq ++ [f] := by
  rw [deliverBit_eq]
  split
  · exact accBit_fq _ _
  · exact accBit_fq _ _

/-- `sliceIndex` writes the scan registers and the pending bits alone. -/
theorem sliceIndex_shape (s : State) :
    ∃ k l a c, s.sliceIndex = { s with idx := k, last := l, pendf := a, pendt := c } := by
  rcases sliceIndex_cases s with ⟨_, _, h⟩ | ⟨_, h⟩
  · exact ⟨_, _, _, _, h⟩
  · exact ⟨_, _, _, _, h⟩

/-- Settles O26: every effect leaves alone what its operation does not write. -/
theorem elementsChangeOnlyByTheirWriters : Obligations.ElementsChangeOnlyByTheirWriters := by
  intro i s t h
  cases effect_of_exec h with
  | answer _ r => simp +contextual
  | pop => simp +contextual
  | sample d _ =>
    have htakes : TakesSample (.sample d) := ⟨d, .inl rfl⟩
    obtain ⟨w, e, c, hs⟩ := takeSample_shape s d
    simp +contextual [hs, htakes]
  | sampleLast d _ =>
    have htakes : TakesSample (.sampleLast d) := ⟨d, .inr rfl⟩
    have hcloses : ClosesBlock (.sampleLast d) := .inr ⟨d, rfl⟩
    obtain ⟨w, e, c, hs⟩ := takeSample_shape s d
    simp [hs, htakes, hcloses]
  | endBlock _ =>
    have hcloses : ClosesBlock .endBlock := .inl rfl
    simp [hcloses]
  | done _ =>
    have hclears : ClearsBlock .done := .inl rfl
    simp [hclears]
  | reset =>
    have hclears : ClearsBlock .reset := .inr rfl
    simp [hclears]
  | slice _ =>
    obtain ⟨k, l, a, c, hs⟩ := sliceIndex_shape s
    simp +contextual [hs]
  | bitStep _ hi _ =>
    have hfq := deliverBit_fq s
    obtain ⟨a, c, e, p, y, n, q, hs⟩ := deliverBit_shape s
    rw [hs] at hfq ⊢
    rcases hfq with rfl | ⟨f, rfl⟩
    · simp +contextual [hi]
    · simp +contextual [hi]

/-! ### Capacities -/

/-- A sum of amplitudes is an amplitude, so an envelope value is not negative (41_envelope.md R127). -/
theorem windowValue_nonneg (c : Config) {win : List Rat} (h : ∀ a ∈ win, 0 ≤ a) : 0 ≤ windowValue c win :=
  div_nonneg (mul_nonneg (List.sum_nonneg h) (Nat.cast_nonneg _)) (Nat.cast_nonneg _)

theorem sampleValue_nonneg (c : Config) (d : Nat) : 0 ≤ sampleValue c d :=
  div_nonneg (Nat.cast_nonneg _) (Nat.cast_nonneg _)

/-- A sample keeps the stores in agreement while the block has room for it (40_block_control.md R102, 41_envelope.md R121). -/
theorem takeSample_storesOk {s : State} (hw : 1 ≤ s.cfg.w) (hc : s.canSample = true) (h : StoresOk s) (d : Nat) :
    StoresOk (s.takeSample d) := by
  obtain ⟨_, hwin, henv, hwin0, henv0⟩ := h
  have hroom : Config.atMost s.cfg.nmax (s.cnt + 1) = true := (atMost_iff _ _).2 ((canSample_iff s).1 hc).2
  have hnew : ∀ a ∈ s.win ++ [sampleValue s.cfg d], 0 ≤ a := by
    simpa [or_imp, forall_and] using ⟨hwin0, sampleValue_nonneg s.cfg d⟩
  rw [takeSample_frame]
  rcases envPush_cases s (sampleValue s.cfg d) with ⟨hfull, hs⟩ | ⟨hfull, hs⟩ <;> rw [hs]
  · refine ⟨hroom, ?_, ?_, fun a ha => hnew a (List.mem_of_mem_tail ha), ?_⟩
    · simp only [List.length_tail, List.length_append, List.length_singleton]; omega
    · simp only [List.length_append, List.length_singleton]; omega
    · simpa [or_imp, forall_and] using ⟨henv0, windowValue_nonneg s.cfg hnew⟩
  · refine ⟨hroom, ?_, ?_, hnew, henv0⟩
    · simp only [List.length_append, List.length_singleton]; omega
    · show s.env.length = s.cnt + 1 + 1 - s.cfg.w
      omega

/-- Every operation keeps the stores in agreement. -/
theorem exec_keeps_storesOk {i : Instr} {s t : State} (hw : 1 ≤ s.cfg.w) (h : StoresOk s) (ht : exec i s = .next t) :
    StoresOk t := by
  cases effect_of_exec ht with
  | answer _ r => exact h
  | pop => exact h
  | sample d hc => exact takeSample_storesOk hw hc h d
  | sampleLast d hc => exact takeSample_storesOk hw hc h d
  | endBlock _ => exact h
  | done _ => exact storesOk_empty hw rfl rfl rfl
  | reset => exact storesOk_empty hw rfl rfl rfl
  | slice _ =>
    obtain ⟨k, l, a, c, hs⟩ := sliceIndex_shape s
    rw [hs]; exact h
  | bitStep _ _ _ =>
    obtain ⟨a, c, e, p, y, n, q, hs⟩ := deliverBit_shape s
    rw [hs]; exact h

/-- The bound on `PENDF` is a bound for every longer trace. -/
theorem pendingOk_mono {s t : State} (h : PendingOk s) (hcfg : t.cfg = s.cfg) (hpendf : t.pendf ≤ s.pendf)
    (henv : s.env.length ≤ t.env.length) : PendingOk t := by
  rw [PendingOk, hcfg]
  exact hpendf.trans (h.trans (Nat.div_le_div_right (by omega)))

/-- The trace never gets shorter by a sample. -/
theorem takeSample_env_length (s : State) (d : Nat) : s.env.length ≤ (s.takeSample d).env.length := by
  rw [takeSample_frame]
  rcases envPush_cases s (sampleValue s.cfg d) with ⟨_, hs⟩ | ⟨_, hs⟩ <;> simp [hs]

/-- A gap measured inside the trace decodes to no more bits than its length allows (10_state.md R21). -/
theorem sliceIndex_pendingOk {s : State} (hc : s.canSlice = true) (h : PendingOk s) : PendingOk s.sliceIndex := by
  obtain ⟨_, hidx, _⟩ := (canSlice_iff s).1 hc
  rcases sliceIndex_cases s with ⟨_, _, hs⟩ | ⟨_, hs⟩ <;> rw [hs]
  · have hgap : s.gapTimer - 1 ≤ s.env.length - 2 := by
      rw [State.gapTimer]; omega
    exact Nat.div_le_div_right hgap
  · exact h

/-- A delivered bit leaves no more `false` bits pending than there were. -/
theorem deliverBit_pendf_le (s : State) : s.deliverBit.pendf ≤ s.pendf := by
  rw [deliverBit_eq]
  split
  · rw [accBit_frame]; exact Nat.sub_le _ _
  · rw [accBit_frame]

/-- Every operation keeps the bound on `PENDF` (10_state.md R21). -/
theorem exec_keeps_pendingOk {i : Instr} {s t : State} (h : PendingOk s) (ht : exec i s = .next t) : PendingOk t := by
  cases effect_of_exec ht with
  | answer _ r => exact h
  | pop => exact h
  | sample d _ =>
    have henv := takeSample_env_length s d
    obtain ⟨w, e, c, hs⟩ := takeSample_shape s d
    rw [hs] at henv ⊢
    exact pendingOk_mono h rfl le_rfl henv
  | sampleLast d _ => exact Nat.zero_le _
  | endBlock _ => exact Nat.zero_le _
  | done _ => exact Nat.zero_le _
  | reset => exact Nat.zero_le _
  | slice hc => exact sliceIndex_pendingOk hc h
  | bitStep _ _ _ =>
    have hpendf := deliverBit_pendf_le s
    obtain ⟨a, c, e, p, y, n, q, hs⟩ := deliverBit_shape s
    rw [hs] at hpendf ⊢
    exact pendingOk_mono h rfl hpendf le_rfl

/-- A finite `NMAX` bounds the trace by `LMAX` (00_scope.md R7). -/
theorem env_length_le_lmax {s : State} {n : Nat} (h : StoresOk s) (hn : s.cfg.nmax = some n) :
    s.env.length ≤ if s.cfg.w ≤ n then n - s.cfg.w + 1 else 0 := by
  obtain ⟨hmax, _, henv, _⟩ := h
  have hcnt : s.cnt ≤ n := (atMost_iff _ _).1 hmax n hn
  split <;> omega

/-- A finite `NMAX` bounds the pending `false` bits by what the longest trace allows (10_state.md R21). -/
theorem pendf_le_of_nmax {s : State} {n : Nat} (h : StoresOk s) (hp : PendingOk s)
    (hn : s.cfg.nmax = some n) (hwn : s.cfg.w ≤ n) : s.pendf ≤ (n - s.cfg.w + 1 - 2) / s.cfg.period := by
  have henv := env_length_le_lmax h hn
  rw [if_pos hwn] at henv
  exact hp.trans (Nat.div_le_div_right (by omega))

/-- Settles O32: both bounds follow from the agreement of the stores and the bound on `PENDF`, which every operation keeps. -/
theorem capacitiesSuffice : Obligations.CapacitiesSuffice := by
  intro s n ⟨hlegal, hstores, _, hpending, _⟩ hn
  have hw := legal_w_pos hlegal
  refine ⟨env_length_le_lmax hstores hn, fun hwn _ => pendf_le_of_nmax hstores hpending hn hwn, fun i t ht => ?_⟩
  have hcfg : t.cfg = s.cfg := (elementsChangeOnlyByTheirWriters i s t ht).1
  have hstores' := exec_keeps_storesOk hw hstores ht
  have hpending' := exec_keeps_pendingOk hpending ht
  rw [← hcfg] at hn ⊢
  exact ⟨env_length_le_lmax hstores' hn, fun hwn _ => pendf_le_of_nmax hstores' hpending' hn hwn⟩

end Sys2Proof.Scope
end

section
/-!
PROOFS. The state of the block (10_state.md): the accumulator's properties, the invariant and that every step keeps it, the advance of a
scan, the registers, the wire byte, and the running-sum form of the window.
-/

namespace Sys2Proof.BlockState

open Sys2Proof.Machine Sys2Proof.Safety Sys2Proof.Scope

/-! ### The accumulator -/

/-- A partial byte with its next bit in place fills one place more (43_deserializer_frame.md R161). -/
theorem nextPartial_lt {s : State} (b : Bool) (h : s.pbyte.toNat < 2 ^ s.pbits) :
    (nextPartial s b).toNat < 2 ^ (s.pbits + 1) := by
  have hold : s.pbyte.toNat < 2 ^ (s.pbits + 1) := by rw [Nat.pow_succ]; omega
  have hnew : (BitVec.setWidth 8 (BitVec.ofBool b) <<< s.pbits).toNat < 2 ^ (s.pbits + 1) := by
    rw [BitVec.toNat_shiftLeft, Nat.shiftLeft_eq]
    refine (Nat.mod_le _ _).trans_lt ?_
    have hbit : (BitVec.setWidth 8 (BitVec.ofBool b)).toNat < 2 := by cases b <;> decide
    rw [Nat.pow_succ, Nat.mul_comm]
    exact Nat.mul_lt_mul_of_pos_left hbit (Nat.two_pow_pos _)
  rw [nextPartial, BitVec.toNat_or]
  exact Nat.or_lt_two_pow hold hnew

/-- The place of the next bit is still clear (43_deserializer_frame.md R169). -/
theorem pbyte_next_place_clear {s : State} (h : s.pbyte.toNat < 2 ^ s.pbits) : s.pbyte.getLsbD s.pbits = false :=
  Nat.testBit_lt_two_pow h

/-- A header byte holds a length of 7 bits (30_encoding.md R71). -/
theorem header_length_le (v : Byte) : (v >>> 1).toNat ≤ 127 := by
  have hv := v.isLt
  rw [BitVec.toNat_ushiftRight, Nat.shiftRight_eq_div_pow]
  omega

/-- A whole byte keeps the accumulator's properties (10_state.md R26). -/
theorem accByte_accumulatorOk {s : State} (h : AccumulatorOk s) (v : Byte) : AccumulatorOk (s.accByte v) := by
  obtain ⟨hbits, hbyte, hlen, hnone, hshort⟩ := h
  rcases accByte_cases s v with ⟨h0, hs⟩ | ⟨h0, hmore, hs⟩ | ⟨_, _, hs⟩ <;> rw [hs]
  · exact ⟨hbits, hbyte, header_length_le v, fun _ => hnone h0, fun hpos => by rw [hnone h0]; exact hpos⟩
  · have hpay : s.pay.length < s.explen := hshort (Nat.pos_of_ne_zero h0)
    refine ⟨hbits, hbyte, hlen, fun h0' => absurd h0' h0, fun _ => ?_⟩
    show (s.pay ++ [v]).length < s.explen
    rw [List.length_append, List.length_singleton]
    omega
  · exact ⟨hbits, hbyte, Nat.zero_le _, fun _ => rfl, fun hpos => absurd hpos (Nat.lt_irrefl 0)⟩

/-- One bit keeps the accumulator's properties (43_deserializer_frame.md R166). -/
theorem accBit_accumulatorOk {s : State} (h : AccumulatorOk s) (b : Bool) : AccumulatorOk (s.accBit b) := by
  rcases accBit_cases s b with ⟨hne, hs⟩ | ⟨_, hs⟩ <;> rw [hs]
  · obtain ⟨hbits, hbyte, hframe⟩ := h
    exact ⟨by simp only; omega, nextPartial_lt b hbyte, hframe⟩
  · obtain ⟨_, _, hframe⟩ := h
    exact accByte_accumulatorOk (s := { s with pbyte := 0, pbits := 0 }) ⟨Nat.zero_le _, Nat.one_pos, hframe⟩ _

/-- A byte keeps the queue, or completes a frame of 1 to 127 bytes and empties `EXPLEN` and `PAY` (43_deserializer_frame.md R163). -/
theorem accByte_emits {s : State} (hlen : s.explen ≤ 127) (v : Byte) :
    (s.accByte v).fq = s.fq ∨
      ∃ f : Frame, (s.accByte v).fq = s.fq ++ [f] ∧ 1 ≤ f.length ∧ f.length ≤ 127 ∧
        (s.accByte v).explen = 0 ∧ (s.accByte v).pay = [] := by
  rcases accByte_cases s v with ⟨_, hs⟩ | ⟨_, _, hs⟩ | ⟨_, hfull, hs⟩ <;> rw [hs]
  · exact .inl rfl
  · exact .inl rfl
  · have hf : (s.pay ++ [v]).length = s.explen := by simpa using hfull
    exact .inr ⟨s.pay ++ [v], rfl, by omega, by omega, rfl, rfl⟩

/-- A bit keeps the queue, or completes a frame of 1 to 127 bytes and leaves a fresh accumulator (43_deserializer_frame.md R164). -/
theorem accBit_emits {s : State} (h : AccumulatorOk s) (b : Bool) :
    (s.accBit b).fq = s.fq ∨
      ∃ f : Frame, (s.accBit b).fq = s.fq ++ [f] ∧ 1 ≤ f.length ∧ f.length ≤ 127 ∧ FreshAccumulator (s.accBit b) := by
  obtain ⟨_, _, hlen, _⟩ := h
  rcases accBit_cases s b with ⟨_, hs⟩ | ⟨_, hs⟩ <;> rw [hs]
  · exact .inl rfl
  · obtain ⟨hpbits, hpbyte⟩ := accByte_boundary { s with pbyte := 0, pbits := 0 } (nextPartial s b)
    rcases accByte_emits (s := { s with pbyte := 0, pbits := 0 }) hlen (nextPartial s b) with
      hkeep | ⟨f, hfq, h1, h127, hexplen, hpay⟩
    · exact .inl hkeep
    · exact .inr ⟨f, hfq, h1, h127, hexplen, hpay, hpbyte, hpbits⟩

/-- Settles O45, by the two cases of a bit: kept in the partial byte, or completing a byte. -/
theorem accumulatorInvariantsHold : Obligations.AccumulatorInvariantsHold := by
  intro s b h
  have ⟨_, hbyte, _⟩ := h
  exact ⟨accBit_accumulatorOk h b, pbyte_next_place_clear hbyte, accBit_emits h b⟩

/-! ### The step `BIT` -/

/-- `BIT` takes one of the pending `false` bits, if there is one (42_slicer_gap.md R147). -/
theorem deliverBit_pendf (s : State) : s.deliverBit.pendf = s.pendf - 1 := by
  rw [deliverBit_eq]
  split
  · rw [accBit_frame]
  · rw [accBit_frame]; simp only; omega

/-- `BIT` takes the pending `true` bit when no `false` bit is left (42_slicer_gap.md R147). -/
theorem deliverBit_pendt (s : State) : s.deliverBit.pendt = if 0 < s.pendf then s.pendt else false := by
  rw [deliverBit_eq]
  split <;> rw [accBit_frame]

/-- `BIT` keeps the accumulator's properties. -/
theorem deliverBit_accumulatorOk {s : State} (h : AccumulatorOk s) : AccumulatorOk s.deliverBit := by
  rw [deliverBit_eq]
  split
  · exact accBit_accumulatorOk (s := { s with pendf := s.pendf - 1 }) h false
  · exact accBit_accumulatorOk (s := { s with pendt := false }) h true

/-- `BIT` keeps the queue, or appends a frame of 1 to 127 bytes. -/
theorem deliverBit_emits {s : State} (h : AccumulatorOk s) :
    s.deliverBit.fq = s.fq ∨ ∃ f : Frame, s.deliverBit.fq = s.fq ++ [f] ∧ 1 ≤ f.length ∧ f.length ≤ 127 := by
  rw [deliverBit_eq]
  split
  · exact (accBit_emits (s := { s with pendf := s.pendf - 1 }) h false).imp_right
      fun ⟨f, hfq, h1, h127, _⟩ => ⟨f, hfq, h1, h127⟩
  · exact (accBit_emits (s := { s with pendt := false }) h true).imp_right
      fun ⟨f, hfq, h1, h127, _⟩ => ⟨f, hfq, h1, h127⟩

/-! ### What every operation keeps -/

/-- One index passed keeps the scan registers in range, inside the trace (42_slicer_gap.md R141). -/
theorem sliceIndex_scanOk {s : State} (hc : s.canSlice = true) (h : ScanOk s) : ScanOk s.sliceIndex := by
  obtain ⟨_, hidx, _⟩ := (canSlice_iff s).1 hc
  obtain ⟨_, hlast, hpend⟩ := h
  rcases sliceIndex_cases s with ⟨_, _, hs⟩ | ⟨_, hs⟩ <;> rw [hs]
  · exact ⟨hidx, .inr (Nat.lt_succ_self _), fun _ => rfl⟩
  · exact ⟨hidx, hlast.imp_right Nat.lt_succ_of_lt, hpend⟩

/-- `BIT` leaves a `false` bit pending only with its `true` bit (10_state.md R21). -/
theorem deliverBit_scanOk {s : State} (h : ScanOk s) : ScanOk s.deliverBit := by
  have hpendf := deliverBit_pendf s
  have hpendt := deliverBit_pendt s
  obtain ⟨a, c, e, p, y, n, q, hs⟩ := deliverBit_shape s
  rw [hs] at hpendf hpendt ⊢
  obtain ⟨hidx, hlast, hpend⟩ := h
  refine ⟨hidx, hlast, fun hpos => ?_⟩
  have hpos' : 0 < s.pendf := by simp only at hpendf hpos; omega
  exact hpendt.trans ((if_pos hpos').trans (hpend hpos'))

/-- At the start of a scan its registers are in range. -/
theorem scanOk_start {s : State} (hidx : s.idx = 0) (hlast : s.last = 0) (hpendf : s.pendf = 0) : ScanOk s :=
  ⟨by omega, .inl hlast, by omega⟩

/-- Every operation keeps the scan registers in range (10_state.md R20, R21). -/
theorem exec_keeps_scanOk {i : Instr} {s t : State} (h : ScanOk s) (ht : exec i s = .next t) : ScanOk t := by
  cases effect_of_exec ht with
  | answer _ r => exact h
  | pop => exact h
  | sample d _ =>
    have henv := takeSample_env_length s d
    obtain ⟨w, e, c, hs⟩ := takeSample_shape s d
    rw [hs] at henv ⊢
    obtain ⟨hidx, hrest⟩ := h
    exact ⟨hidx.trans henv, hrest⟩
  | sampleLast d _ => exact scanOk_start rfl rfl rfl
  | endBlock _ => exact scanOk_start rfl rfl rfl
  | done _ => exact scanOk_start rfl rfl rfl
  | reset => exact scanOk_start rfl rfl rfl
  | slice hc => exact sliceIndex_scanOk hc h
  | bitStep _ _ _ => exact deliverBit_scanOk h

/-- A fresh accumulator has the accumulator's properties (10_state.md R26). -/
theorem freshAccumulator_accumulatorOk {s : State} (h : FreshAccumulator s) : AccumulatorOk s := by
  obtain ⟨hexplen, hpay, hpbyte, hpbits⟩ := h
  rw [AccumulatorOk, hexplen, hpay, hpbyte, hpbits]
  decide

/-- Every operation keeps the accumulator's properties (10_state.md R26). -/
theorem exec_keeps_accumulatorOk {i : Instr} {s t : State} (h : AccumulatorOk s) (ht : exec i s = .next t) :
    AccumulatorOk t := by
  cases effect_of_exec ht with
  | answer _ r => exact h
  | pop => exact h
  | sample d _ =>
    obtain ⟨w, e, c, hs⟩ := takeSample_shape s d
    rw [hs]; exact h
  | sampleLast d _ => exact freshAccumulator_accumulatorOk ⟨rfl, rfl, rfl, rfl⟩
  | endBlock _ => exact freshAccumulator_accumulatorOk ⟨rfl, rfl, rfl, rfl⟩
  | done _ => exact freshAccumulator_accumulatorOk ⟨rfl, rfl, rfl, rfl⟩
  | reset => exact freshAccumulator_accumulatorOk ⟨rfl, rfl, rfl, rfl⟩
  | slice _ =>
    obtain ⟨k, l, a, c, hs⟩ := sliceIndex_shape s
    rw [hs]; exact h
  | bitStep _ _ _ => exact deliverBit_accumulatorOk h

/-- Every operation that ends in `FILL` ends with the registers of `FILL` at their reset values (40_block_control.md R104, R109). -/
theorem exec_keeps_fillOk {i : Instr} {s t : State} (h : FillOk s) (ht : exec i s = .next t) : FillOk t := by
  cases effect_of_exec ht with
  | answer _ r => exact h
  | pop => exact h
  | sample d _ =>
    obtain ⟨w, e, c, hs⟩ := takeSample_shape s d
    rw [hs]; exact h
  | sampleLast d _ => simp
  | endBlock _ => simp
  | done _ => simp
  | reset => simp
  | slice hc =>
    have hscan : s.phase = .scan := ((canSlice_iff s).1 hc).1
    obtain ⟨k, l, a, c, hs⟩ := sliceIndex_shape s
    simp [hs, hscan]
  | bitStep _ _ hc =>
    have hscan : s.phase = .scan := ((canBit_iff s).1 hc).1
    obtain ⟨a, c, e, p, y, n, q, hs⟩ := deliverBit_shape s
    simp [hs, hscan]

/-- The queue without its oldest frame is within its bounds. -/
theorem queueOk_tail {s : State} (h : QueueOk s) : QueueOk { s with fq := s.fq.tail } := by
  obtain ⟨hdepth, hframes⟩ := h
  refine ⟨(atMost_iff _ _).2 fun n hn => ?_, fun f hf => hframes f (List.mem_of_mem_tail hf)⟩
  rw [List.length_tail]
  exact (Nat.sub_le _ _).trans ((atMost_iff _ _).1 hdepth n hn)

/-- `BIT` takes a queue with room to one within its bounds (10_state.md R29, 42_slicer_gap.md R147). -/
theorem deliverBit_queueOk {s : State} (hc : s.canBit = true) (ha : AccumulatorOk s) (h : QueueOk s) :
    QueueOk s.deliverBit := by
  obtain ⟨_, _, hroom⟩ := (canBit_iff s).1 hc
  obtain ⟨hdepth, hframes⟩ := h
  have hfq := deliverBit_emits ha
  obtain ⟨a, c, e, p, y, n, q, hs⟩ := deliverBit_shape s
  rw [hs] at hfq ⊢
  rcases hfq with rfl | ⟨f, rfl, h1, h127⟩
  · exact ⟨hdepth, hframes⟩
  · refine ⟨(atMost_iff _ _).2 fun n hn => ?_, ?_⟩
    · simpa using hroom n hn
    · intro g hg
      rcases List.mem_append.1 hg with hold | hnew
      · exact hframes g hold
      · rw [List.mem_singleton.1 hnew]; exact ⟨h1, h127⟩

/-- Every operation keeps the queue within its bounds (10_state.md R29). -/
theorem exec_keeps_queueOk {i : Instr} {s t : State} (ha : AccumulatorOk s) (h : QueueOk s) (ht : exec i s = .next t) :
    QueueOk t := by
  cases effect_of_exec ht with
  | answer _ r => exact h
  | pop => exact queueOk_tail h
  | sample d _ =>
    obtain ⟨w, e, c, hs⟩ := takeSample_shape s d
    rw [hs]; exact h
  | sampleLast d _ =>
    obtain ⟨w, e, c, hs⟩ := takeSample_shape s d
    rw [hs]; exact h
  | endBlock _ => exact h
  | done _ => exact h
  | reset => exact ⟨(atMost_iff _ _).2 fun _ _ => Nat.zero_le _, by simp⟩
  | slice _ =>
    obtain ⟨k, l, a, c, hs⟩ := sliceIndex_shape s
    rw [hs]; exact h
  | bitStep _ _ hc => exact deliverBit_queueOk hc ha h

/-- Every operation keeps the invariant of the block. -/
theorem exec_keeps_blockInv {i : Instr} {s t : State} (h : BlockInv s) (ht : exec i s = .next t) : BlockInv t := by
  obtain ⟨hlegal, hstores, hscan, hpending, hacc, hfill, hqueue⟩ := h
  have hcfg : t.cfg = s.cfg := (elementsChangeOnlyByTheirWriters i s t ht).1
  exact ⟨hcfg ▸ hlegal, exec_keeps_storesOk (legal_w_pos hlegal) hstores ht, exec_keeps_scanOk hscan ht,
    exec_keeps_pendingOk hpending ht, exec_keeps_accumulatorOk hacc ht, exec_keeps_fillOk hfill ht,
    exec_keeps_queueOk hacc hqueue ht⟩

/-- The turns to come take no part in the invariant. -/
theorem turnTaken_blockInv {s : State} (h : BlockInv s) : BlockInv s.turnTaken := h

/-- Settles O24: a step is an operation on the state whose turn has been given away. -/
theorem stepKeepsInvariant : Obligations.StepKeepsInvariant := by
  intro s t h ht
  obtain ⟨i, _, hexec⟩ := step_cases ht
  exact exec_keeps_blockInv (turnTaken_blockInv h) hexec

/-! ### The state after reset -/

/-- Settles O21: the elements by the laws of the state just reset, the registers by reading each. -/
theorem resetStateHasTabulatedValues : Obligations.ResetStateHasTabulatedValues := by
  refine ⟨rfl, rfl, rfl, rfl, rfl, rfl, rfl, rfl, rfl, rfl, rfl, rfl, rfl, ?_⟩
  decide

/-- Settles O23: the default configuration is legal. -/
theorem resetStateIsInvariant : Obligations.ResetStateIsInvariant :=
  initial_blockInv (c := Config.default) (by decide)

/-! ### The advance of a scan -/

/-- Settles O27: the operations that fill or clear cannot happen in a scan that goes on, `SLICE` passes one index with no bit pending, and
`BIT` leaves the scan registers alone. -/
theorem scanAdvancesByOneIndex : Obligations.ScanAdvancesByOneIndex := by
  intro i s t hinv hscan ht hscan'
  obtain ⟨_, _, hregs, _⟩ := hinv
  have hidx : t.idx ≤ t.env.length := (exec_keeps_scanOk hregs ht).1
  have hfill : s.phase ≠ .fill := (phase_ne_fill_iff s).2 hscan
  cases effect_of_exec ht with
  | answer _ r => exact ⟨rfl, hidx, .inl rfl, fun _ => ⟨rfl, rfl⟩⟩
  | pop => exact ⟨rfl, hidx, .inl rfl, fun _ => ⟨rfl, rfl⟩⟩
  | sample d hc => exact absurd ((canSample_iff s).1 hc).1 hfill
  | sampleLast d hc => exact absurd ((canSample_iff s).1 hc).1 hfill
  | endBlock hc => exact absurd ((canEnd_iff s).1 hc) hfill
  | done _ => cases hscan'
  | reset => cases hscan'
  | slice hc =>
    obtain ⟨_, _, hpend⟩ := (canSlice_iff s).1 hc
    have hnone : s.bitPending = false := (bitPending_false_iff s).2 hpend
    rcases sliceIndex_cases s with ⟨_, _, hs⟩ | ⟨_, hs⟩ <;> rw [hs] at hidx ⊢ <;>
      exact ⟨rfl, hidx, .inr ⟨rfl, rfl, hnone⟩, by simp [hnone]⟩
  | bitStep _ _ _ =>
    obtain ⟨a, c, e, p, y, n, q, hs⟩ := deliverBit_shape s
    rw [hs] at hidx ⊢
    exact ⟨rfl, hidx, .inl rfl, fun _ => ⟨rfl, rfl⟩⟩

/-! ### The registers -/

/-- `RDREG` is performed in every state and only answers (40_block_control.md R107). -/
theorem exec_rdreg (n : Nat) (s : State) :
    exec (.rdreg n) s = .next { s with resp := .data (s.readRegister n) } :=
  exec_of_enabled rfl

/-- Register numbers above 7 read 0 (40_block_control.md R107). -/
theorem readRegister_above {n : Nat} (hn : 7 < n) (s : State) : s.readRegister n = 0 := by
  obtain ⟨k, rfl⟩ := Nat.exists_eq_add_of_le' hn
  rfl

/-- Register 7 reads `CNT` where it fits 32 bits (10_state.md R30). -/
theorem readRegister_count {s : State} (h : s.cnt < 2 ^ 32) : s.readRegister 7 = BitVec.ofNat 32 s.cnt :=
  if_pos h

/-- Settles O7: `RDREG` answers what the register reads. -/
theorem rdregReadsRegisters : Obligations.RdregReadsRegisters := by
  intro s
  refine ⟨fun n => ⟨_, exec_rdreg n s⟩, fun _ => rfl, exec_rdreg 0 s, exec_rdreg 1 s, exec_rdreg 2 s, exec_rdreg 3 s,
    exec_rdreg 4 s, exec_rdreg 5 s, fun hcnt => ?_, fun n hn => ?_⟩
  · rw [exec_rdreg, readRegister_count hcnt]
  · rw [exec_rdreg, readRegister_above hn]

/-- A field shifted above all bits of `a` is added to it. -/
theorem or_shiftLeft_eq_add {a i : Nat} (b : Nat) (h : a < 2 ^ i) : a ||| b <<< i = a + 2 ^ i * b := by
  rw [Nat.lor_comm, ← Nat.shiftLeft_add_eq_or_of_lt h, Nat.shiftLeft_eq, Nat.mul_comm, Nat.add_comm]

/-- The eight fields of `STATUS`, each within its width, do not overlap (10_state.md R31). -/
theorem status_toNat {s : State} (hbits : s.pbits < 2 ^ 3) (hexplen : s.explen < 2 ^ 7) (hpay : s.pay.length < 2 ^ 7) :
    s.status.toNat =
      s.busy.toNat + 2 ^ 1 * s.favail.toNat + 2 ^ 2 * s.ffull.toNat + 2 ^ 3 * s.bfull.toNat +
        2 ^ 4 * s.awaiting.toNat + 2 ^ 5 * s.pbits + 2 ^ 8 * s.explen + 2 ^ 15 * s.pay.length := by
  have hbusy := s.busy.toNat_lt
  have hfavail := s.favail.toNat_lt
  have hffull := s.ffull.toNat_lt
  have hbfull := s.bfull.toNat_lt
  have hawait := s.awaiting.toNat_lt
  rw [State.status, BitVec.toNat_ofNat]
  simp (disch := omega) only [or_shiftLeft_eq_add]
  exact Nat.mod_eq_of_lt (by omega)

/-- The payload collected so far has fewer than 2^7 bytes (10_state.md R26). -/
theorem pay_length_lt {s : State} (h : AccumulatorOk s) : s.pay.length < 2 ^ 7 := by
  obtain ⟨_, _, hexplen, hnone, hshort⟩ := h
  rcases Nat.eq_zero_or_pos s.explen with h0 | hpos
  · rw [hnone h0]; decide
  · have := hshort hpos
    omega

/-- A flag, as the number its bit stands for. -/
theorem toNat_eq_ite {b : Bool} {p : Prop} [Decidable p] (h : b = true ↔ p) (k : Nat) :
    k * b.toNat = if p then k else 0 := by
  by_cases hp : p
  · rw [if_pos hp, h.2 hp]; simp
  · rw [if_neg hp, Bool.eq_false_iff.2 (mt h.1 hp)]; simp

/-- Settles O8: each field is within its width, and each flag says what its bit stands for. -/
theorem statusPacksFields : Obligations.StatusPacksFields := by
  intro s h
  have ⟨hbits, _, hexplen, _⟩ := h
  refine ⟨s.status, exec_rdreg 6 s, ?_⟩
  have hbusy := toNat_eq_ite (b := s.busy) (p := s.phase = .scan) (by simp [State.busy]) 1
  have hfavail := toNat_eq_ite (b := s.favail) (p := s.fq ≠ []) (by simp [State.favail, List.length_pos_iff]) 2
  have hffull := toNat_eq_ite (b := s.ffull) (reached_iff _ _) 4
  have hbfull := toNat_eq_ite (b := s.bfull) (reached_iff _ _) 8
  have hawait := toNat_eq_ite (b := s.awaiting) (p := s.explen = 0) (by simp [State.awaiting]) 16
  rw [ite_not] at hfavail
  rw [status_toNat (by omega) (by omega) (pay_length_lt h), ← hbusy, ← hfavail, ← hffull, ← hbfull, ← hawait]
  omega

/-! ### The datapath's turn -/

/-! What is due, in each of the four cases of the sequencer (10_state.md R22). -/

theorem due_of_fill {s : State} (h : s.phase = .fill) : s.due = .nop := by
  simp [State.due, h]

theorem due_of_bitPending {s : State} (h : s.phase = .scan) (hpend : s.bitPending = true) : s.due = .bit := by
  simp [State.due, h, hpend]

theorem due_of_index_left {s : State} (h : s.phase = .scan) (hpend : s.bitPending = false)
    (hidx : s.idx < s.env.length) : s.due = .slice := by
  simp [State.due, h, hpend, hidx]

theorem due_of_scanned {s : State} (h : s.phase = .scan) (hpend : s.bitPending = false)
    (hidx : s.env.length ≤ s.idx) : s.due = .done := by
  simp [State.due, h, hpend, hidx.not_gt]

/-- With no request waiting the step is the one that is due (10_state.md R22). -/
theorem step_of_no_requests {s : State} (h : s.requests = []) : step s = exec s.due s := by
  have hfetch : s.fetch = .ok s.due := by simp [State.fetch, State.nextRequest, h, decode, State.context]
  have hturn : s.turnTaken = s := by rw [State.turnTaken, h, List.tail_nil, ← h]
  rw [step_of_fetch hfetch, hturn]

/-- Settles O20: the step is the one due, and what is due is known in each of the four cases. -/
theorem datapathStepFollowsSequencer : Obligations.DatapathStepFollowsSequencer := by
  intro s h
  rw [step_of_no_requests h]
  refine ⟨fun hfill => ?fill, fun hscan hpend => ?bit, fun hscan hf ht hidx => ?slice, fun hscan hf ht hidx => ?done⟩
  case fill =>
    rw [due_of_fill hfill]
    exact exec_of_enabled rfl
  case bit => rw [due_of_bitPending hscan ((bitPending_iff s).2 hpend)]
  case slice => rw [due_of_index_left hscan ((bitPending_false_iff s).2 ⟨hf, ht⟩) hidx]
  case done => rw [due_of_scanned hscan ((bitPending_false_iff s).2 ⟨hf, ht⟩) hidx]

/-! ### The wire byte -/

/-- The number a header byte stands for (30_encoding.md R71). -/
theorem headerByte_toNat (len : BitVec 7) (mark : Bool) : (headerByte len mark).toNat = 2 * len.toNat + mark.toNat := by
  have hmark : mark.toNat < 2 ^ 1 := mark.toNat_lt
  rw [headerByte, BitVec.toNat_append, BitVec.toNat_ofBool, ← Nat.shiftLeft_add_eq_or_of_lt hmark, Nat.shiftLeft_eq,
    Nat.mul_comm]

/-- Every byte is a header byte (30_encoding.md R71). -/
theorem exists_headerByte (v : Byte) : ∃ len mark, headerByte len mark = v := by
  refine ⟨BitVec.ofNat 7 (v.toNat / 2), v.toNat.testBit 0, BitVec.eq_of_toNat_eq ?_⟩
  have hv := v.isLt
  rw [headerByte_toNat, BitVec.toNat_ofNat, Nat.toNat_testBit]
  omega

/-- A header byte determines its length and its marker. -/
theorem headerByte_inj {len len' : BitVec 7} {mark mark' : Bool} (h : headerByte len mark = headerByte len' mark') :
    len = len' ∧ mark = mark' := by
  have hnat := congrArg BitVec.toNat h
  rw [headerByte_toNat, headerByte_toNat] at hnat
  have hmark := mark.toNat_lt
  have hmark' := mark'.toNat_lt
  have hmarks : mark.toNat = mark'.toNat := by omega
  exact ⟨BitVec.eq_of_toNat_eq (by omega), Bool.eq_iff_iff.2 (by rw [← Bool.toNat_eq_one, ← Bool.toNat_eq_one, hmarks])⟩

/-- A header operation is enabled exactly when the next bit completes its byte while a header is awaited (20_memory.md R55). -/
theorem enabled_hdr_iff (s : State) (len : BitVec 7) (mark : Bool) :
    s.enabled (.hdr len mark) = true ↔
      s.enabled .bit = true ∧ s.pbits = 7 ∧ nextPartial s s.nextBit = headerByte len mark ∧ s.explen = 0 :=
  canTakeHeader_iff s (headerByte len mark)

/-- A payload operation is enabled exactly when the next bit completes its byte inside a frame (20_memory.md R55). -/
theorem enabled_payload_iff (s : State) (v : Byte) :
    s.enabled (.payload v) = true ↔
      s.enabled .bit = true ∧ s.pbits = 7 ∧ nextPartial s s.nextBit = v ∧ 0 < s.explen :=
  canTakePayload_iff s v

/-- Settles O16: the byte that the next bit completes names the one header or payload operation that is enabled. -/
theorem wireByteActsByItsBits : Obligations.WireByteActsByItsBits := by
  intro s len mark v
  refine ⟨fun hbits hbyte => ?byte, fun hbit hbits hexplen => ?header, fun hbit hbits hexplen => ?payload,
    fun hout => ?noHeader, fun hout => ?noPayload⟩
  case byte =>
    rw [accBits_byteBits s v hbits hbyte]
    rcases accByte_cases s v with ⟨h0, hs⟩ | ⟨h0, hmore, hs⟩ | ⟨h0, hfull, hs⟩
    · rw [hs, if_pos h0, BitVec.toNat_ushiftRight, Nat.shiftRight_eq_div_pow]
    · rw [hs, if_neg h0, if_neg hmore]
    · rw [hs, if_neg h0, if_pos hfull]
  case header =>
    obtain ⟨l, m, hlm⟩ := exists_headerByte (nextPartial s s.nextBit)
    have henabled : s.enabled (.hdr l m) = true := (enabled_hdr_iff s l m).2 ⟨hbit, hbits, hlm.symm, hexplen⟩
    refine ⟨l, m, henabled, execHdr_eq_execBit henabled, fun l' m' h' => ?_⟩
    obtain ⟨_, _, hlm', _⟩ := (enabled_hdr_iff s l' m').1 h'
    exact headerByte_inj (hlm'.symm.trans hlm.symm)
  case payload =>
    have henabled : s.enabled (.payload (nextPartial s s.nextBit)) = true :=
      (enabled_payload_iff s _).2 ⟨hbit, hbits, rfl, hexplen⟩
    refine ⟨_, henabled, execPayload_eq_execBit henabled, fun b' h' => ?_⟩
    obtain ⟨_, _, hb', _⟩ := (enabled_payload_iff s b').1 h'
    exact hb'.symm
  case noHeader =>
    refine exec_of_not_enabled (Bool.eq_false_iff.2 fun henabled => ?_)
    obtain ⟨hbit, hbits, _, hexplen⟩ := (enabled_hdr_iff s len mark).1 henabled
    rcases hout with hno | hno | hno
    · exact Bool.eq_false_iff.1 hno hbit
    · exact hno hbits
    · omega
  case noPayload =>
    refine exec_of_not_enabled (Bool.eq_false_iff.2 fun henabled => ?_)
    obtain ⟨hbit, hbits, _, hexplen⟩ := (enabled_payload_iff s v).1 henabled
    rcases hout with hno | hno | hno
    · exact Bool.eq_false_iff.1 hno hbit
    · exact hno hbits
    · omega

/-! ### The running sum -/

/-- The running-sum form and a block hold the same envelope and window, and the sum is the window's. -/
def RunningSumAgrees (r : RunningSum) (t : State) : Prop :=
  r.env = t.env ∧ r.win = t.win ∧ r.sum = t.win.sum

/-- One push in the running-sum form is one sample of the block (41_envelope.md R123). -/
theorem push_agrees {r : RunningSum} {t : State} (h : RunningSumAgrees r t) (d : Nat) :
    RunningSumAgrees (r.push t.cfg (sampleValue t.cfg d)) (t.takeSample d) := by
  obtain ⟨henv, hwin, hsum⟩ := h
  have hnew : (t.win ++ [sampleValue t.cfg d]).sum = r.sum + sampleValue t.cfg d := by simp [hsum]
  have hhead : ∀ l : List Rat, l.tail.sum = l.sum - l.headD 0 := fun l => by cases l <;> simp
  rw [takeSample_frame]
  rcases envPush_cases t (sampleValue t.cfg d) with ⟨hfull, hs⟩ | ⟨hfull, hs⟩ <;> rw [hs]
  · simp [RunningSum.push, RunningSumAgrees, henv, hwin, hfull, windowValue, hhead, ← hnew]
  · simp [RunningSum.push, RunningSumAgrees, henv, hwin, hfull, ← hsum]

/-- The samples of a block keep the two forms in agreement. -/
theorem pushes_agree (codes : List Nat) {r : RunningSum} {t : State} (h : RunningSumAgrees r t) :
    RunningSumAgrees ((codes.map (sampleValue t.cfg)).foldl (RunningSum.push t.cfg) r)
      (codes.foldl State.takeSample t) := by
  induction codes generalizing r t with
  | nil => exact h
  | cons d rest ih =>
    have hcfg : (t.takeSample d).cfg = t.cfg := by rw [takeSample_frame]
    have := ih (push_agrees h d)
    rwa [hcfg] at this

/-- Settles O37: both forms start empty, and every sample keeps them in agreement. -/
theorem runningSumIsEquivalent : Obligations.RunningSumIsEquivalent := by
  intro s codes _ hwin henv
  have hstart : RunningSumAgrees RunningSum.start s := by
    simp [RunningSumAgrees, RunningSum.start, hwin, henv]
  exact pushes_agree codes hstart

end Sys2Proof.BlockState
end

section
/-!
PROOFS. The memory of the block (20_memory.md): runs whose requests are words of their ports never stop, nothing but the queue survives a
block, and the pending registers hold exactly the bits of one gap.
-/

namespace Sys2Proof.Memory

open Sys2Proof.Machine Sys2Proof.Safety Sys2Proof.Scope Sys2Proof.BlockState

/-! ### Words of a port -/

/-- The request presents a word that its port can carry and that asks for something (30_encoding.md R80, R85, R87; log 14). -/
def IsPortWord (aw : Nat) (r : Request) : Prop :=
  (r.port = .command → r.word < 4 * 2 ^ aw) ∧ (r.port = .frame → r.word = 1) ∧
    (r.port = .resetPin → r.word = 1) ∧ (r.port = .wireByte → r.word < 256)

/-- No word of the command port's width is illegal (30_encoding.md R82). -/
theorem exists_decodeCommand_eq_ok {aw w : Nat} (h : w < 4 * 2 ^ aw) : ∃ i, decodeCommand aw w = .ok i := by
  have hop : w / 2 ^ aw < 4 := Nat.div_lt_of_lt_mul (by rwa [Nat.mul_comm])
  unfold decodeCommand
  generalize w / 2 ^ aw = op at hop
  interval_cases op <;> exact ⟨_, rfl⟩

/-- Every eight-bit word is a wire byte (30_encoding.md R71, R72). -/
theorem exists_decodeByte_eq_ok {w : Nat} (h : w < 256) (awaiting : Bool) : ∃ i, decodeByte awaiting w = .ok i :=
  ⟨_, if_pos h⟩

/-- Every word of a port stands for an operation (30_encoding.md R90). -/
theorem exists_decode_eq_ok {ctx : Context} {r : Request} (h : IsPortWord ctx.aw r) : ∃ i, decode ctx r = .ok i := by
  obtain ⟨port, word⟩ := r
  obtain ⟨hcommand, hframe, hreset, hbyte⟩ := h
  cases port with
  | command => exact exists_decodeCommand_eq_ok (hcommand rfl)
  | frame => obtain rfl : word = 1 := hframe rfl; exact ⟨_, rfl⟩
  | register => exact ⟨_, rfl⟩
  | resetPin => obtain rfl : word = 1 := hreset rfl; exact ⟨_, rfl⟩
  | datapath => exact ⟨_, rfl⟩
  | wireByte => exact exists_decodeByte_eq_ok (hbyte rfl) ctx.awaiting
  | wireGap => exact ⟨_, rfl⟩

/-! ### Runs -/

/-- Every turn to come presents a word of its port. -/
def RequestsFitPorts (s : State) : Prop := ∀ r ∈ s.requests, IsPortWord s.cfg.aw r

/-- The request whose turn it is presents a word of its port; the datapath's own turn has no word (log 3). -/
theorem nextRequest_isPortWord {s : State} (h : RequestsFitPorts s) : IsPortWord s.cfg.aw s.nextRequest := by
  unfold State.nextRequest
  split
  next => simp [IsPortWord]
  next r rest hs => exact h r (hs ▸ List.mem_cons_self)

/-- An operation leaves the turns to come, and the width their words are read in, as they are. -/
theorem exec_keeps_requestsFitPorts {i : Instr} {s t : State} (h : RequestsFitPorts s) (ht : exec i s = .next t) :
    RequestsFitPorts t := by
  obtain ⟨hcfg, hrequests, _⟩ := elementsChangeOnlyByTheirWriters i s t ht
  rw [RequestsFitPorts, hcfg, hrequests]
  exact h

/-- A step whose request is a word of its port answers a next state, and the turns still to come are words of theirs. -/
theorem step_next_of_requestsFitPorts {s : State} (h : RequestsFitPorts s) :
    ∃ t, step s = .next t ∧ RequestsFitPorts t := by
  obtain ⟨i, hfetch⟩ : ∃ i, s.fetch = .ok i := exists_decode_eq_ok (nextRequest_isPortWord h)
  obtain ⟨t, hexec, _⟩ := operationsNeverFail i s.turnTaken
  have hturn : RequestsFitPorts s.turnTaken := fun r hr => h r (List.mem_of_mem_tail hr)
  exact ⟨t, (step_of_fetch hfetch).trans hexec, exec_keeps_requestsFitPorts hturn hexec⟩

/-- A run goes on from the state its first step answers. -/
theorem run_succ_of_step {s t : State} (h : step s = .next t) (k : Nat) :
    Host.Core.run Sys2Proof.core (k + 1) s = Host.Core.run Sys2Proof.core k t := by
  have hcore : Sys2Proof.core.step s = .next t := h
  simp only [Host.Core.run, hcore]

/-- A run whose turns are all words of their ports is safe: each step keeps them so. -/
theorem safeRun_of_requestsFitPorts {s : State} (h : RequestsFitPorts s) : SafeRun s := by
  intro k
  induction k generalizing s with
  | zero => exact ⟨s, rfl⟩
  | succ k ih =>
    obtain ⟨t, hstep, ht⟩ := step_next_of_requestsFitPorts h
    rw [run_succ_of_step hstep]
    exact ih ht

/-- Settles O25, by induction on the number of steps. -/
theorem runsNeverStop : Obligations.RunsNeverStop :=
  fun _ => safeRun_of_requestsFitPorts

/-! ### The end of a block -/

/-- `DONE` performed leaves the reset state of the configuration, but for the queue and the turns to come (40_block_control.md R109,
70_reset_and_hazards.md R204). -/
theorem performed_done_eq_initial (s : State) :
    performed .done s =
      { State.initial s.cfg with requests := s.requests, fq := s.fq, resp := .performed } := rfl

/-- Settles O30: what `DONE` leaves is a function of the configuration, the turns to come and the queue. -/
theorem nothingSurvivesABlock : Obligations.NothingSurvivesABlock := by
  intro s₁ s₂ t₁ t₂ hcfg hrequests hfq h₁ h₂ ht₁ ht₂
  obtain rfl := exec_next_unique ht₁ (exec_of_enabled h₁)
  obtain rfl := exec_next_unique ht₂ (exec_of_enabled h₂)
  rw [performed_done_eq_initial, performed_done_eq_initial, hcfg, hrequests, hfq]
  exact ⟨rfl, rfl⟩

/-! ### The bits of a gap -/

/-- The loop of `GapBits` gives one `false` for each whole `PERIOD` that fits below the gap, however much fuel is left over
(42_slicer_gap.md R145, R146). -/
theorem gapLoop_eq_replicate {period : Nat} (hp : 1 ≤ period) {fuel gap : Nat} (hfuel : gap ≤ fuel) :
    gapLoop period fuel ((gap : Int) - period) = List.replicate ((gap - 1) / period) false := by
  induction fuel generalizing gap with
  | zero =>
    obtain rfl : gap = 0 := Nat.le_zero.1 hfuel
    simp [gapLoop]
  | succ fuel ih =>
    by_cases hgap : period < gap
    · have hrest : (gap : Int) - period = ((gap - period : Nat) : Int) := by omega
      have hcount : (gap - 1) / period = (gap - period - 1) / period + 1 := by
        rw [Nat.div_eq_sub_div hp (by omega), Nat.sub_right_comm]
      rw [gapLoop, if_pos (by omega), hrest, ih (by omega), hcount, List.replicate_succ]
    · rw [gapLoop, if_neg (by omega), Nat.div_eq_of_lt (by omega), List.replicate_zero]

/-- `GapBits` in closed form: `NF(gap)` `false` bits, then the `true` (42_slicer_gap.md R146). -/
theorem gapBits_eq {period : Nat} (hp : 1 ≤ period) (gap : Nat) :
    gapBits period gap = List.replicate ((gap - 1) / period) false ++ [true] := by
  rw [gapBits, gapLoop_eq_replicate hp le_rfl]

/-! ### The bits of a gap, one `BIT` step at a time -/

/-- A sequence of operations goes on from the state its first one answers. -/
theorem execAll_cons_of_exec {i : Instr} {s t : State} (h : exec i s = .next t) (is : List Instr) :
    execAll (i :: is) s = execAll is t := by
  simp only [execAll, h]

/-- With an unbounded queue, `BIT` is performed whenever a bit is pending (42_slicer_gap.md R147). -/
theorem exec_bit_of_unbounded {s : State} (hscan : s.phase = .scan) (hdepth : s.cfg.fqDepth = none)
    (hpend : 0 < s.pendf ∨ s.pendt = true) : exec .bit s = .next (s.deliverBit.respond .performed) :=
  exec_of_enabled ((canBit_iff s).2 ⟨hscan, hpend, by simp [hdepth]⟩)

/-- The state with no bit pending. -/
def noPending (s : State) : State := { s with pendf := 0, pendt := false }

/-- While a `false` bit is pending `BIT` gives a `false` to the accumulator. -/
theorem noPending_deliverBit_of_pendf_pos {s : State} (h : 0 < s.pendf) :
    noPending s.deliverBit = (noPending s).accBit false := by
  have hrest : s.deliverBit = { s.accBit false with pendf := s.pendf - 1, pendt := s.pendt } := by
    rw [deliverBit_eq, if_pos h]
    exact accBit_pending s (s.pendf - 1) s.pendt false
  rw [hrest]
  exact (accBit_pending s 0 false false).symm

/-- With no `false` bit left `BIT` gives the `true` bit to the accumulator, and none is pending. -/
theorem deliverBit_of_pendf_zero {s : State} (h : s.pendf = 0) : s.deliverBit = (noPending s).accBit true := by
  rw [deliverBit_eq, if_neg (by omega), noPending, ← h]

/-- `BIT` leaves the phase and the configuration as they are. -/
theorem deliverBit_phase_cfg (s : State) : s.deliverBit.phase = s.phase ∧ s.deliverBit.cfg = s.cfg := by
  obtain ⟨a, c, e, p, y, n, q, hs⟩ := deliverBit_shape s
  rw [hs]
  exact ⟨rfl, rfl⟩

/-- `n` pending `false` bits and the `true` after them are delivered by `n + 1` `BIT` steps (42_slicer_gap.md R147). -/
theorem execAll_bits_of_pending {n : Nat} {s : State} (hscan : s.phase = .scan) (hdepth : s.cfg.fqDepth = none)
    (hpendf : s.pendf = n) (hpendt : s.pendt = true) :
    execAll (List.replicate (n + 1) .bit) s =
      .next (((noPending s).accBits (List.replicate n false ++ [true])).respond .performed) := by
  induction n generalizing s with
  | zero =>
    rw [List.replicate_one, execAll_cons_of_exec (exec_bit_of_unbounded hscan hdepth (.inr hpendt)),
      deliverBit_of_pendf_zero hpendf]
    rfl
  | succ n ih =>
    have hpos : 0 < s.pendf := by omega
    have hpendf' : s.deliverBit.pendf = n := by rw [deliverBit_pendf, hpendf, Nat.add_sub_cancel]
    have hpendt' : s.deliverBit.pendt = true := by rw [deliverBit_pendt, if_pos hpos, hpendt]
    obtain ⟨hphase, hcfg⟩ := deliverBit_phase_cfg s
    have hnext : noPending (s.deliverBit.respond .performed) = ((noPending s).accBit false).respond .performed :=
      congrArg (State.respond · .performed) (noPending_deliverBit_of_pendf_pos hpos)
    rw [List.replicate_succ, execAll_cons_of_exec (exec_bit_of_unbounded hscan hdepth (.inr hpendt)),
      ih (s := s.deliverBit.respond .performed) (hphase.trans hscan) (hcfg ▸ hdepth) hpendf' hpendt', hnext,
      accBits_respond, List.replicate_succ, List.cons_append, accBits_cons]
    rfl

/-- Settles O42: the pending bits of the gap are its `GapBits` in closed form. -/
theorem bitStepsDeliverTheGap : Obligations.BitStepsDeliverTheGap := by
  intro s g hlegal _ hscan hdepth hpendf hpendt
  obtain ⟨⟨_, _, hperiod⟩, _⟩ := (legal_iff s.cfg).1 hlegal
  rw [gapBits_eq hperiod]
  exact execAll_bits_of_pending hscan hdepth hpendf hpendt

end Sys2Proof.Memory
end

section
/-!
PROOFS. The encodings (30_encoding.md): the words of the ports and back, the wire format of a frame, the operations of a wire byte and of a
gap, and what the ports show and do at a clock edge.
-/

namespace Sys2Proof.Encoding

open Sys2Proof.Machine Sys2Proof.Safety Sys2Proof.Scope Sys2Proof.BlockState Sys2Proof.Memory

/-! ### Command words -/

/-- The `op` field of a command word lies above its `AW`-bit operand (30_encoding.md R82). -/
theorem commandWord_op {aw d : Nat} (hd : d < 2 ^ aw) (op : Nat) : (op * 2 ^ aw + d) / 2 ^ aw = op := by
  rw [Nat.mul_comm, Nat.mul_add_div (Nat.two_pow_pos aw), Nat.div_eq_of_lt hd, Nat.add_zero]

/-- The operand of a command word is its low `AW` bits (30_encoding.md R82). -/
theorem commandWord_operand {aw d : Nat} (hd : d < 2 ^ aw) (op : Nat) : (op * 2 ^ aw + d) % 2 ^ aw = d := by
  rw [Nat.mul_comm, Nat.mul_add_mod, Nat.mod_eq_of_lt hd]

/-! What a command word is, for each value of its `op` field (30_encoding.md R83). -/

theorem decodeCommand_nop {aw d : Nat} (hd : d < 2 ^ aw) : decodeCommand aw d = .ok .nop := by
  simp only [decodeCommand, Nat.div_eq_of_lt hd]

theorem decodeCommand_sample {aw d : Nat} (hd : d < 2 ^ aw) :
    decodeCommand aw (1 * 2 ^ aw + d) = .ok (.sample d) := by
  simp only [decodeCommand, commandWord_op hd, commandWord_operand hd]

theorem decodeCommand_sampleLast {aw d : Nat} (hd : d < 2 ^ aw) :
    decodeCommand aw (2 * 2 ^ aw + d) = .ok (.sampleLast d) := by
  simp only [decodeCommand, commandWord_op hd, commandWord_operand hd]

theorem decodeCommand_endBlock {aw d : Nat} (hd : d < 2 ^ aw) :
    decodeCommand aw (3 * 2 ^ aw + d) = .ok .endBlock := by
  simp only [decodeCommand, commandWord_op hd]

/-- What a command word that decodes can be, by its `op` field (30_encoding.md R83). -/
theorem decodeCommand_cases {aw w : Nat} {i : Instr} (h : decodeCommand aw w = .ok i) :
    (w / 2 ^ aw = 0 ∧ i = .nop) ∨ (w / 2 ^ aw = 1 ∧ i = .sample (w % 2 ^ aw)) ∨
      (w / 2 ^ aw = 2 ∧ i = .sampleLast (w % 2 ^ aw)) ∨ (w / 2 ^ aw = 3 ∧ i = .endBlock) := by
  unfold decodeCommand at h
  split at h
  next hop => exact .inl ⟨hop, (Except.ok.inj h).symm⟩
  next hop => exact .inr (.inl ⟨hop, (Except.ok.inj h).symm⟩)
  next hop => exact .inr (.inr (.inl ⟨hop, (Except.ok.inj h).symm⟩))
  next hop => exact .inr (.inr (.inr ⟨hop, (Except.ok.inj h).symm⟩))
  next => cases h

/-! ### Wire bytes and request lines -/

/-- The length field of a header byte (30_encoding.md R71). -/
theorem headerByte_length (len : BitVec 7) (mark : Bool) : (headerByte len mark).extractLsb' 1 7 = len := by
  have hmark := mark.toNat_lt
  refine BitVec.eq_of_toNat_eq ?_
  rw [BitVec.extractLsb'_toNat, headerByte_toNat, Nat.shiftRight_eq_div_pow]
  omega

/-- The marker of a header byte (30_encoding.md R71). -/
theorem headerByte_marker (len : BitVec 7) (mark : Bool) : (headerByte len mark).getLsbD 0 = mark := by
  rw [headerByte, BitVec.getLsbD_append, if_pos Nat.one_pos]
  cases mark <;> rfl

/-- A byte is put together again from its length field and its marker. -/
theorem headerByte_fields (v : Byte) : headerByte (v.extractLsb' 1 7) (v.getLsbD 0) = v := by
  obtain ⟨len, mark, rfl⟩ := exists_headerByte v
  rw [headerByte_length, headerByte_marker]

/-- The role of a wire byte is decided by whether a header is awaited (30_encoding.md R72). -/
theorem decodeByte_toNat (awaiting : Bool) (v : Byte) :
    decodeByte awaiting v.toNat =
      .ok (if awaiting then .hdr (v.extractLsb' 1 7) (v.getLsbD 0) else .payload v) := by
  rw [decodeByte, if_pos v.isLt, BitVec.ofNat_toNat, BitVec.setWidth_eq]

theorem decodeByte_header (len : BitVec 7) (mark : Bool) :
    decodeByte true (headerByte len mark).toNat = .ok (.hdr len mark) := by
  rw [decodeByte_toNat, if_pos rfl, headerByte_length, headerByte_marker]

theorem decodeByte_payload (v : Byte) : decodeByte false v.toNat = .ok (.payload v) := by
  rw [decodeByte_toNat, if_neg Bool.false_ne_true]

/-- What a wire word that decodes can be: the byte it holds, as a header or as payload. -/
theorem decodeByte_cases {awaiting : Bool} {w : Nat} {i : Instr} (h : decodeByte awaiting w = .ok i) :
    ∃ v : Byte, v.toNat = w ∧ (i = .hdr (v.extractLsb' 1 7) (v.getLsbD 0) ∨ i = .payload v) := by
  by_cases hw : w < 256
  · have hv : (BitVec.ofNat 8 w).toNat = w := Nat.mod_eq_of_lt hw
    rw [← hv, decodeByte_toNat] at h
    refine ⟨BitVec.ofNat 8 w, hv, ?_⟩
    cases awaiting with
    | true => exact .inl (Except.ok.inj h).symm
    | false => exact .inr (Except.ok.inj h).symm
  · rw [decodeByte, if_neg hw] at h
    cases h

/-- A request line asks for its operation exactly with the word 1 (30_encoding.md R85, R87). -/
theorem decodeLine_cases {port : Port} {i j : Instr} {w : Nat} (h : decodeLine port j w = .ok i) : w = 1 ∧ i = j := by
  unfold decodeLine at h
  split at h
  next => cases h
  next => exact ⟨rfl, (Except.ok.inj h).symm⟩
  next => cases h

/-! ### Decode and encode agree -/

/-- Settles O34: the word of an operation holds its operands in the fields its port reads them from. -/
theorem decodeOfEncodeIsIdentity : Obligations.DecodeOfEncodeIsIdentity := by
  intro c ctx i haw hwf hadmits
  obtain ⟨aw, awaiting, due⟩ := ctx
  obtain rfl : aw = c.aw := haw
  cases i with
  | nop => exact decodeCommand_nop (Nat.two_pow_pos c.aw)
  | sample d => exact decodeCommand_sample (of_decide_eq_true hwf)
  | sampleLast d => exact decodeCommand_sampleLast (of_decide_eq_true hwf)
  | endBlock => exact decodeCommand_endBlock (Nat.two_pow_pos c.aw)
  | pop => rfl
  | rdreg n => rfl
  | reset => rfl
  | gap g => rfl
  | slice => exact congrArg Except.ok (of_decide_eq_true hadmits)
  | bit => exact congrArg Except.ok (of_decide_eq_true hadmits)
  | done => exact congrArg Except.ok (of_decide_eq_true hadmits)
  | hdr len mark =>
    obtain rfl : awaiting = true := hadmits
    exact decodeByte_header len mark
  | payload v =>
    obtain rfl : awaiting = false := by simpa [Context.admits] using hadmits
    exact decodeByte_payload v

/-- A command word that decodes is the word of its operation, or agrees with it in the `op` field of `NOP` or `END`
(30_encoding.md R83). -/
theorem encode_of_decodeCommand {aw w : Nat} {i : Instr} (h : decodeCommand aw w = .ok i) :
    encode aw i = ⟨.command, w⟩ ∨
      ((i = .nop ∨ i = .endBlock) ∧ w / 2 ^ aw = (encode aw i).word / 2 ^ aw) := by
  have hsplit := Nat.div_add_mod' w (2 ^ aw)
  rcases decodeCommand_cases h with ⟨hop, rfl⟩ | ⟨hop, rfl⟩ | ⟨hop, rfl⟩ | ⟨hop, rfl⟩
  · exact .inr ⟨.inl rfl, by rw [hop, encode, Nat.zero_div]⟩
  · rw [hop] at hsplit
    exact .inl (by rw [encode, hsplit])
  · rw [hop] at hsplit
    exact .inl (by rw [encode, hsplit])
  · exact .inr ⟨.inr rfl, by rw [hop, encode, Nat.mul_div_cancel _ (Nat.two_pow_pos aw)]⟩

/-- A wire word that decodes is the byte of its operation (30_encoding.md R71, R72). -/
theorem encode_of_decodeByte {awaiting : Bool} {w : Nat} {i : Instr} (h : decodeByte awaiting w = .ok i) (aw : Nat) :
    encode aw i = ⟨.wireByte, w⟩ := by
  obtain ⟨v, rfl, rfl | rfl⟩ := decodeByte_cases h
  · rw [encode, headerByte_fields]
  · rfl

/-- A request of a port that decodes is the request of its operation, up to the ignored bits of `NOP` and `END`
(30_encoding.md R83, R90). -/
theorem encode_of_decode {ctx : Context} {r : Request} {i : Instr} (h : decode ctx r = .ok i)
    (hport : r.port ≠ .datapath) :
    encode ctx.aw i = r ∨
      ((i = .nop ∨ i = .endBlock) ∧ r.port = .command ∧ r.word / 2 ^ ctx.aw = (encode ctx.aw i).word / 2 ^ ctx.aw) := by
  obtain ⟨port, word⟩ := r
  cases port with
  | command => exact (encode_of_decodeCommand h).imp_right fun ⟨hi, hop⟩ => ⟨hi, rfl, hop⟩
  | frame => obtain ⟨rfl, rfl⟩ := decodeLine_cases h; exact .inl rfl
  | register => obtain rfl := Except.ok.inj h; exact .inl rfl
  | resetPin => obtain ⟨rfl, rfl⟩ := decodeLine_cases h; exact .inl rfl
  | datapath => exact absurd rfl hport
  | wireByte => exact .inl (encode_of_decodeByte h ctx.aw)
  | wireGap => obtain rfl := Except.ok.inj h; exact .inl rfl

/-- A sample code read from a command word has `AW` bits (30_encoding.md R82). -/
theorem decodeCommand_sample_lt {aw w d : Nat}
    (h : decodeCommand aw w = .ok (.sample d) ∨ decodeCommand aw w = .ok (.sampleLast d)) : d < 2 ^ aw := by
  have hmod : w % 2 ^ aw < 2 ^ aw := Nat.mod_lt _ (Nat.two_pow_pos aw)
  rcases h with h | h
  · obtain ⟨_, rfl⟩ : w / 2 ^ aw = 1 ∧ d = w % 2 ^ aw := by simpa using decodeCommand_cases h
    exact hmod
  · obtain ⟨_, rfl⟩ : w / 2 ^ aw = 2 ∧ d = w % 2 ^ aw := by simpa using decodeCommand_cases h
    exact hmod

/-- A sample that a port asks for is asked for on the command port. -/
theorem port_of_decode_sample {ctx : Context} {r : Request} {d : Nat}
    (h : decode ctx r = .ok (.sample d) ∨ decode ctx r = .ok (.sampleLast d)) (hport : r.port ≠ .datapath) :
    r.port = .command := by
  rcases h with h | h
  · rcases encode_of_decode h hport with rfl | ⟨_, hcommand, _⟩
    · rfl
    · exact hcommand
  · rcases encode_of_decode h hport with rfl | ⟨_, hcommand, _⟩
    · rfl
    · exact hcommand

/-- Settles O35, port by port. -/
theorem encodeOfDecodeIsIdentity : Obligations.EncodeOfDecodeIsIdentity := by
  intro ctx r
  refine ⟨fun i => encode_of_decode, fun d h hport => ?code, fun hport hword => ?total, fun hport => ?turn⟩
  case code =>
    have hcommand := port_of_decode_sample h hport
    obtain ⟨port, word⟩ := r
    obtain rfl : port = .command := hcommand
    exact decodeCommand_sample_lt h
  case total =>
    obtain ⟨port, word⟩ := r
    obtain rfl : port = .command := hport
    exact exists_decodeCommand_eq_ok hword
  case turn =>
    obtain ⟨port, word⟩ := r
    obtain rfl : port = .datapath := hport
    rfl

/-- Settles O33: each word is read by the tables of its port. -/
theorem writtenOutWordsDecode : Obligations.WrittenOutWordsDecode :=
  ⟨rfl, rfl, rfl, rfl, rfl, rfl, rfl, rfl, rfl, rfl, rfl, rfl, rfl, rfl⟩

/-! ### Frames on the wire -/

/-! `AccByte` in its two roles (43_deserializer_frame.md R162, R163). -/

theorem accByte_of_awaiting {s : State} (h : s.explen = 0) (v : Byte) : s.accByte v = { s with explen := v.toNat / 2 } := by
  rcases accByte_cases s v with ⟨_, hs⟩ | ⟨hne, _⟩ | ⟨hne, _⟩
  · rw [hs, BitVec.toNat_ushiftRight, Nat.shiftRight_eq_div_pow]
  · exact absurd h hne
  · exact absurd h hne

theorem accByte_of_payload {s : State} (h : 0 < s.explen) (v : Byte) :
    s.accByte v =
      { s with
        fq := if s.pay.length + 1 = s.explen then s.fq ++ [s.pay ++ [v]] else s.fq
        pay := if s.pay.length + 1 = s.explen then [] else s.pay ++ [v]
        explen := if s.pay.length + 1 = s.explen then 0 else s.explen } := by
  rcases accByte_cases s v with ⟨h0, _⟩ | ⟨_, hmore, hs⟩ | ⟨_, hfull, hs⟩
  · exact absurd h0 (Nat.pos_iff_ne_zero.1 h)
  · rw [hs, if_neg hmore, if_neg hmore, if_neg hmore]
  · rw [hs, if_pos hfull, if_pos hfull, if_pos hfull]

/-- The bytes still missing from a frame complete it (43_deserializer_frame.md R163). -/
theorem accByte_foldl_of_missing {s : State} {rest : List Byte} (hne : rest ≠ [])
    (hlen : s.pay.length + rest.length = s.explen) :
    rest.foldl State.accByte s = { s with fq := s.fq ++ [s.pay ++ rest], pay := [], explen := 0 } := by
  induction rest generalizing s with
  | nil => exact absurd rfl hne
  | cons v rest ih =>
    rw [List.length_cons] at hlen
    rw [List.foldl_cons, accByte_of_payload (by omega)]
    rcases eq_or_ne rest [] with rfl | hrest
    · have hfull : s.pay.length + 1 = s.explen := hlen
      simp only [if_pos hfull, List.foldl_nil]
    · have hpos := List.length_pos_iff.2 hrest
      have hmore : s.pay.length + 1 ≠ s.explen := by omega
      simp only [if_neg hmore]
      rw [ih hrest (by simp only [List.length_append, List.length_singleton]; omega), List.append_assoc,
        List.singleton_append]

/-- The bits of a frame are the bits of its header byte and of its payload bytes in order (30_encoding.md R70). -/
theorem frameBits_eq_flatMap (f : Frame) :
    frameBits f = (headerByte (BitVec.ofNat 7 f.length) true :: f).flatMap byteBits := rfl

/-- The header of a frame of at most 127 bytes announces its length (30_encoding.md R71). -/
theorem frameHeader_announces {f : Frame} (h : f.length ≤ 127) :
    (headerByte (BitVec.ofNat 7 f.length) true).toNat / 2 = f.length := by
  rw [headerByte_toNat, BitVec.toNat_ofNat, Nat.mod_eq_of_lt (by omega), Bool.toNat_true]
  omega

/-- One frame sent to a fresh accumulator is appended to the queue and leaves everything else as it was
(43_deserializer_frame.md R164). -/
theorem accBits_frameBits {s : State} {f : Frame} (hfresh : FreshAccumulator s) (h1 : 1 ≤ f.length) (h127 : f.length ≤ 127) :
    s.accBits (frameBits f) = { s with fq := s.fq ++ [f] } := by
  obtain ⟨cfg, requests, resp, phase, cnt, win, env, idx, last, pendf, pendt, explen, pay, pbyte, pbits, fq⟩ := s
  obtain ⟨hexplen, hpay, hpbyte, hpbits⟩ := hfresh
  simp only at hexplen hpay hpbyte hpbits
  subst hexplen hpay hpbyte hpbits
  rw [frameBits_eq_flatMap, accBits_bytes _ _ rfl rfl, List.foldl_cons, accByte_of_awaiting rfl,
    frameHeader_announces h127, accByte_foldl_of_missing (List.length_pos_iff.1 h1) (Nat.zero_add _)]
  rfl

/-- Settles O46, by induction on the frames: each leaves the accumulator fresh for the next. -/
theorem wireFormatRoundTrips : Obligations.WireFormatRoundTrips := by
  intro s frames hfresh hlengths
  induction frames generalizing s with
  | nil => rw [List.flatMap_nil, accBits_nil, List.append_nil]
  | cons f rest ih =>
    obtain ⟨⟨h1, h127⟩, hrest⟩ := List.forall_mem_cons.1 hlengths
    rw [List.flatMap_cons, accBits_append, accBits_frameBits hfresh h1 h127,
      ih { s with fq := s.fq ++ [f] } hfresh hrest, List.append_assoc, List.singleton_append]

/-! ### The step that completes a wire byte -/

/-- The next bit is added to the partial byte at its own place (43_deserializer_frame.md R161, R169). -/
theorem nextPartial_toNat {s : State} (b : Bool) (hbits : s.pbits ≤ 7) (hbyte : s.pbyte.toNat < 2 ^ s.pbits) :
    (nextPartial s b).toNat = s.pbyte.toNat + 2 ^ s.pbits * b.toNat := by
  have hb : b.toNat ≤ 1 := b.toNat_le
  have hplace : 2 ^ s.pbits ≤ 2 ^ 7 := Nat.pow_le_pow_right Nat.two_pos hbits
  have hbit : (BitVec.setWidth 8 (BitVec.ofBool b)).toNat = b.toNat := by cases b <;> rfl
  have hnew : b.toNat <<< s.pbits < 2 ^ 8 := by
    rw [Nat.shiftLeft_eq]
    exact (Nat.mul_le_mul hb hplace).trans_lt (by decide)
  rw [nextPartial, BitVec.toNat_or, BitVec.toNat_shiftLeft, hbit, Nat.mod_eq_of_lt hnew, or_shiftLeft_eq_add _ hbyte]

/-- The value that the next bit has on place 7: a `false` while one is pending, else the `true` (42_slicer_gap.md R147). -/
theorem nextBit_on_last_place (s : State) : 2 ^ 7 * s.nextBit.toNat = if 0 < s.pendf then 0 else 128 := by
  by_cases h : 0 < s.pendf
  · rw [if_pos h, State.nextBit, decide_eq_true h]; rfl
  · rw [if_neg h, State.nextBit, decide_eq_false h]; rfl

/-- The byte that the eighth bit completes. -/
theorem nextPartial_eq_of_toNat {s : State} {v : Byte} (hbits : s.pbits = 7) (hbyte : s.pbyte.toNat < 2 ^ 7)
    (hv : s.pbyte.toNat + (if 0 < s.pendf then 0 else 128) = v.toNat) : nextPartial s s.nextBit = v := by
  refine BitVec.eq_of_toNat_eq ?_
  rw [nextPartial_toNat _ hbits.le (hbits ▸ hbyte), hbits, nextBit_on_last_place, hv]

/-- The state with the eighth bit taken and its byte on the way to `AccByte` (42_slicer_gap.md R147, 43_deserializer_frame.md R161). -/
def eighthBitTaken (s : State) : State :=
  { s with
    pendf := s.pendf - 1, pendt := (if 0 < s.pendf then s.pendt else false)
    pbyte := 0, pbits := 0 }

/-- With seven bits in place, `BIT` takes its pending bit and gives the completed byte to `AccByte` (43_deserializer_frame.md R161,
R162). -/
theorem deliverBit_of_eighth_bit {s : State} (hbits : s.pbits = 7) :
    s.deliverBit = (eighthBitTaken s).accByte (nextPartial s s.nextBit) := by
  by_cases h : 0 < s.pendf
  · have hbit : s.nextBit = false := by simp [State.nextBit, h]
    rw [deliverBit_eq, if_pos h, eighthBitTaken, if_pos h, hbit]
    rcases accBit_cases { s with pendf := s.pendf - 1 } false with ⟨hne, _⟩ | ⟨_, hs⟩
    · exact absurd hbits hne
    · exact hs
  · have hbit : s.nextBit = true := by simp [State.nextBit, h]
    have hnone : s.pendf - 1 = s.pendf := by omega
    rw [deliverBit_eq, if_neg h, eighthBitTaken, if_neg h, hbit, hnone]
    rcases accBit_cases { s with pendt := false } true with ⟨hne, _⟩ | ⟨_, hs⟩
    · exact absurd hbits hne
    · exact hs

/-- Settles O14: the completed byte is a header, and `AccByte` takes its length field. -/
theorem hdrSetsExpectedLength : Obligations.HdrSetsExpectedLength := by
  intro s len mark hscan hroom hpend hbits hbyte hexplen hv
  rw [← headerByte_toNat] at hv ⊢
  have hbyteDone : nextPartial s s.nextBit = headerByte len mark := nextPartial_eq_of_toNat hbits hbyte hv
  have henabled : s.enabled (.hdr len mark) = true :=
    (enabled_hdr_iff s len mark).2 ⟨(canBit_iff s).2 ⟨hscan, hpend, hroom⟩, hbits, hbyteDone, hexplen⟩
  have hlength : (headerByte len mark).toNat / 2 = len.toNat := by
    have := mark.toNat_lt
    rw [headerByte_toNat]
    omega
  refine ⟨?_, execHdr_eq_execBit henabled,
    decodeOfEncodeIsIdentity s.cfg s.context (.hdr len mark) rfl rfl (decide_eq_true hexplen)⟩
  rw [exec_of_enabled henabled, performed, deliverBit_of_eighth_bit hbits, hbyteDone,
    accByte_of_awaiting (s := eighthBitTaken s) hexplen, hlength]
  rfl

/-- Settles O15: the completed byte is payload, and `AccByte` stores it or completes the frame with it. -/
theorem payloadIsCollected : Obligations.PayloadIsCollected := by
  intro s v hscan hroom hpend hbits hbyte hexplen hv
  have hbyteDone : nextPartial s s.nextBit = v := nextPartial_eq_of_toNat hbits hbyte hv
  have henabled : s.enabled (.payload v) = true :=
    (enabled_payload_iff s v).2 ⟨(canBit_iff s).2 ⟨hscan, hpend, hroom⟩, hbits, hbyteDone, hexplen⟩
  have hadmits : s.context.admits (.payload v) = true := by
    simpa [Context.admits, State.context, State.awaiting] using hexplen.ne'
  refine ⟨?_, execPayload_eq_execBit henabled, decodeOfEncodeIsIdentity s.cfg s.context (.payload v) rfl rfl hadmits⟩
  rw [exec_of_enabled henabled, performed, deliverBit_of_eighth_bit hbits, hbyteDone,
    accByte_of_payload (s := eighthBitTaken s) hexplen]
  rfl

/-! ### Gaps -/

/-- Settles O17: `GAP` is never held and answers `GapBits` in closed form above `MINGAP`, nothing at or below it. -/
theorem gapReturnsItsBits : Obligations.GapReturnsItsBits := by
  intro s g hlegal
  obtain ⟨⟨_, _, hperiod⟩, _⟩ := (legal_iff s.cfg).1 hlegal
  have hexec : exec (.gap g) s =
      .next { s with resp := .bits (if g > s.cfg.mingap then gapBits s.cfg.period g else []) } :=
    exec_of_enabled rfl
  refine ⟨fun habove => ?_, fun hbelow => ?_, rfl⟩
  · rw [hexec, if_pos habove, gapBits_eq hperiod]
  · rw [hexec, if_neg hbelow.not_gt]

/-- Settles O41: the closed form counts `(gap - 1) / PERIOD` `false` bits, which is `d - 1` exactly in the slot of `d`. -/
theorem gapToleranceIsOneSided : Obligations.GapToleranceIsOneSided := by
  intro period gap d hperiod hgap hd
  obtain ⟨k, rfl⟩ := Nat.exists_eq_add_of_le' hd
  have hslots : (k + 1) * period = k * period + period := Nat.succ_mul k period
  calc gapBits period gap = List.replicate (k + 1 - 1) false ++ [true]
      ↔ (gap - 1) / period = k := by simp [gapBits_eq hperiod, List.replicate_inj]
    _ ↔ k * period ≤ gap - 1 ∧ gap - 1 ≤ k * period + period - 1 := Nat.div_eq_iff hperiod
    _ ↔ (k + 1 - 1) * period < gap ∧ gap ≤ (k + 1) * period := by
      rw [Nat.add_sub_cancel, hslots]
      omega

/-! ### The frame port -/

/-- The number on `f_payload`: the bytes of a frame as digits to the base 256, byte 0 first (30_encoding.md R80). -/
def payloadNumber (f : Frame) : Nat := Nat.ofDigits 256 (f.map BitVec.toNat)

theorem fPayload_eq (s : State) : s.fPayload = BitVec.ofNat 1016 (payloadNumber (s.fq.headD [])) := by
  simp [State.fPayload, payloadNumber, Nat.ofDigits_eq_foldr, List.foldr_map]

theorem payloadDigit_lt (f : Frame) : ∀ d ∈ f.map BitVec.toNat, d < 256 := by
  intro d hd
  obtain ⟨b, _, rfl⟩ := List.mem_map.1 hd
  exact b.isLt

/-- The number of a frame of at most `n` bytes has `8 * n` bits. -/
theorem payloadNumber_lt {f : Frame} {n : Nat} (h : f.length ≤ n) : payloadNumber f < 2 ^ (8 * n) := by
  have hlt := Nat.ofDigits_lt_base_pow_length (by decide) (payloadDigit_lt f)
  rw [List.length_map] at hlt
  calc payloadNumber f < 256 ^ f.length := hlt
    _ ≤ 256 ^ n := Nat.pow_le_pow_right (by decide) h
    _ = 2 ^ (8 * n) := (Nat.pow_mul 2 8 n).symm

/-- Nothing of the number is lost on `8 * n` lines. -/
theorem ofNat_payloadNumber_toNat {f : Frame} {n : Nat} (h : f.length ≤ n) :
    (BitVec.ofNat (8 * n) (payloadNumber f)).toNat = payloadNumber f := by
  rw [BitVec.toNat_ofNat, Nat.mod_eq_of_lt (payloadNumber_lt h)]

/-- A frame of at most 127 bytes fits the 1016 lines of `f_payload`. -/
theorem fPayload_toNat {s : State} (h : (s.fq.headD []).length ≤ 127) :
    s.fPayload.toNat = payloadNumber (s.fq.headD []) := by
  rw [fPayload_eq]
  exact ofNat_payloadNumber_toNat (n := 127) h

/-- Digit `i` of the number on `f_payload` is byte `i` of the frame, 0 beyond its length. -/
theorem payloadNumber_byte (f : Frame) (i : Nat) : payloadNumber f / 256 ^ i % 256 = (f.getD i 0).toNat := by
  rw [payloadNumber, Nat.ofDigits_div_pow_eq_ofDigits_drop i (by decide) _ (payloadDigit_lt f), ← List.map_drop,
    List.getD_eq_getElem?_getD, ← List.head?_drop]
  cases f.drop i with
  | nil => rfl
  | cons b rest =>
    have hb : b.toNat < 256 := b.isLt
    rw [List.map_cons, Nat.ofDigits_cons, Nat.add_mul_mod_self_left]
    exact Nat.mod_eq_of_lt hb

/-- The head that the frame port shows has at most 127 bytes (10_state.md R29). -/
theorem head_length_le {s : State} (h : QueueOk s) : (s.fq.headD []).length ≤ 127 := by
  obtain ⟨_, hframes⟩ := h
  cases hfq : s.fq with
  | nil => exact Nat.zero_le _
  | cons f rest => exact (hframes f (hfq ▸ List.mem_cons_self)).2

/-- Settles O54: the head fits the port, and its bytes are the digits of the number there. -/
theorem framePortShowsHead : Obligations.FramePortShowsHead := by
  intro s h
  have hlength := head_length_le h
  have hlen : s.fLen.toNat = (s.fq.headD []).length := by
    rw [State.fLen, BitVec.toNat_ofNat, Nat.mod_eq_of_lt (Nat.lt_succ_of_le hlength)]
  refine ⟨by simp [State.fAvail, List.length_pos_iff], hlen, fun i _ => BitVec.eq_of_toNat_eq ?_⟩
  rw [BitVec.extractLsb'_toNat, fPayload_toNat hlength, Nat.shiftRight_eq_div_pow, Nat.pow_mul]
  exact payloadNumber_byte _ i

/-! ### The command port -/

/-- The producer's operations on the command port (30_encoding.md R83). -/
abbrev IsCommand (i : Instr) : Prop := i = .nop ∨ (∃ d, i = .sample d ∨ i = .sampleLast d) ∨ i = .endBlock

/-- A command word stands for one of the producer's operations. -/
theorem isCommand_of_decodeCommand {aw w : Nat} {i : Instr} (h : decodeCommand aw w = .ok i) : IsCommand i := by
  rcases decodeCommand_cases h with ⟨_, hi⟩ | ⟨_, hi⟩ | ⟨_, hi⟩ | ⟨_, hi⟩
  · exact .inl hi
  · exact .inr (.inl ⟨_, .inl hi⟩)
  · exact .inr (.inl ⟨_, .inr hi⟩)
  · exact .inr (.inr hi)

/-- `c_ready` shows the require line of the presented operation (30_encoding.md R81). -/
theorem cReady_of_decodeCommand {s : State} {w : Nat} {i : Instr} (h : decodeCommand s.cfg.aw w = .ok i) :
    s.cReady w = s.enabled i := by
  simp only [State.cReady, h]

/-- A command performed answers no more than that. -/
theorem performed_resp_of_isCommand {i : Instr} (h : IsCommand i) (s : State) : (performed i s).resp = .performed := by
  rcases h with rfl | ⟨d, rfl | rfl⟩ | rfl <;> rfl

/-- Settles O51: `c_ready` is the require line, under which the operation is performed, and without which it is held. -/
theorem readyMeansPerformed : Obligations.ReadyMeansPerformed := by
  intro s w hw
  obtain ⟨i, hi⟩ := exists_decodeCommand_eq_ok hw
  have hready := cReady_of_decodeCommand hi
  cases he : s.enabled i with
  | true =>
    have hresp := performed_resp_of_isCommand (isCommand_of_decodeCommand hi) s
    exact ⟨i, performed i s, hi, exec_of_enabled he, by simp [hready, he, hresp], by simp [hready, he]⟩
  | false => exact ⟨i, s.hold, hi, exec_of_not_enabled he, by simp [hready, he], fun _ => rfl⟩

/-! ### A clock edge -/

/-- The state after the operations are performed one after another. -/
def performAll (ops : List Instr) (s : State) : State := ops.foldl (fun t i => performed i t) s

theorem performAll_cons (i : Instr) (is : List Instr) (s : State) :
    performAll (i :: is) s = performAll is (performed i s) := rfl

theorem performAll_append (xs ys : List Instr) (s : State) :
    performAll (xs ++ ys) s = performAll ys (performAll xs s) := List.foldl_append

/-- No operation of the list is held: each is enabled when its turn comes. -/
def NoneHeld : List Instr → State → Prop
  | [], _ => True
  | i :: is, s => s.enabled i = true ∧ NoneHeld is (performed i s)

theorem noneHeld_cons (i : Instr) (is : List Instr) (s : State) :
    NoneHeld (i :: is) s ↔ s.enabled i = true ∧ NoneHeld is (performed i s) := Iff.rfl

theorem noneHeld_append (xs ys : List Instr) (s : State) :
    NoneHeld (xs ++ ys) s ↔ NoneHeld xs s ∧ NoneHeld ys (performAll xs s) := by
  induction xs generalizing s with
  | nil => exact (and_iff_right trivial).symm
  | cons x xs ih => rw [List.cons_append, noneHeld_cons, noneHeld_cons, ih, performAll_cons, and_assoc]

/-- Operations of which none is held are performed one after another. -/
theorem execAll_of_noneHeld {ops : List Instr} {s : State} (h : NoneHeld ops s) :
    execAll ops s = .next (performAll ops s) := by
  induction ops generalizing s with
  | nil => rfl
  | cons i is ih =>
    obtain ⟨henabled, hrest⟩ := h
    rw [execAll_cons_of_exec (exec_of_enabled henabled), ih hrest, performAll_cons]

/-- The command that an edge takes: the presented one, if its condition holds before the edge (60_exceptions.md R185). -/
def edgeCommand (e : Edge) (s : State) : List Instr :=
  match decodeCommand s.cfg.aw e.cWord with
  | .ok i => if e.cValid && s.enabled i then [i] else []
  | .error _ => []

/-- The `POP` that an edge takes (30_encoding.md R85). -/
def edgePop (e : Edge) : List Instr := if e.fPop then [.pop] else []

/-- The datapath's step that an edge takes, where the datapath steps and the step is enabled (log 18). -/
def edgeStep (e : Edge) (s : State) : List Instr :=
  if e.dStep && decide (s.phase = .scan) && s.enabled s.due then [s.due] else []

theorem edgeOps_of_rst {e : Edge} (h : e.rst = true) (s : State) : edgeOps e s = [.reset] := by
  rw [edgeOps, if_pos h]

theorem edgeOps_of_not_rst {e : Edge} (h : e.rst = false) (s : State) :
    edgeOps e s = edgeCommand e s ++ edgePop e ++ edgeStep e s := by
  rw [edgeOps, if_neg (Bool.not_eq_true _ ▸ h)]
  rfl

theorem mem_edgeCommand_iff (e : Edge) (s : State) (i : Instr) :
    i ∈ edgeCommand e s ↔ decodeCommand s.cfg.aw e.cWord = .ok i ∧ e.cValid = true ∧ s.enabled i = true := by
  cases hd : decodeCommand s.cfg.aw e.cWord with
  | error why => simp [edgeCommand, hd]
  | ok j =>
    simp only [edgeCommand, hd, List.mem_ite_nil_right, List.mem_singleton, Bool.and_eq_true, Except.ok.injEq]
    constructor
    · rintro ⟨hj, rfl⟩
      exact ⟨rfl, hj⟩
    · rintro ⟨rfl, hj⟩
      exact ⟨hj, rfl⟩

theorem mem_edgePop_iff (e : Edge) (i : Instr) : i ∈ edgePop e ↔ e.fPop = true ∧ i = .pop := by
  rw [edgePop, List.mem_ite_nil_right, List.mem_singleton]

theorem mem_edgeStep_iff (e : Edge) (s : State) (i : Instr) :
    i ∈ edgeStep e s ↔ e.dStep = true ∧ s.phase = .scan ∧ s.due = i ∧ s.enabled i = true := by
  simp only [edgeStep, List.mem_ite_nil_right, List.mem_singleton, Bool.and_eq_true, decide_eq_true_eq]
  constructor
  · rintro ⟨⟨⟨hstep, hscan⟩, henabled⟩, rfl⟩
    exact ⟨hstep, hscan, rfl, henabled⟩
  · rintro ⟨hstep, hscan, rfl, henabled⟩
    exact ⟨⟨⟨hstep, hscan⟩, henabled⟩, rfl⟩

/-- Without reset, the operations of an edge are those of the three agents. -/
theorem mem_edgeOps_iff {e : Edge} (h : e.rst = false) (s : State) (i : Instr) :
    i ∈ edgeOps e s ↔ i ∈ edgeCommand e s ∨ i ∈ edgePop e ∨ i ∈ edgeStep e s := by
  rw [edgeOps_of_not_rst h, List.mem_append, List.mem_append, or_assoc]

/-- Every operation of an edge is enabled before the edge (60_exceptions.md R185). -/
theorem enabled_of_mem_edgeOps {e : Edge} {s : State} {i : Instr} (hrst : e.rst = false) (h : i ∈ edgeOps e s) :
    s.enabled i = true := by
  rcases (mem_edgeOps_iff hrst s i).1 h with hcommand | hpop | hstep
  · obtain ⟨_, _, henabled⟩ := (mem_edgeCommand_iff e s i).1 hcommand
    exact henabled
  · obtain ⟨_, rfl⟩ := (mem_edgePop_iff e i).1 hpop
    rfl
  · obtain ⟨_, _, _, henabled⟩ := (mem_edgeStep_iff e s i).1 hstep
    exact henabled

/-- An edge takes no command, or one whose condition holds. -/
theorem edgeCommand_cases (e : Edge) (s : State) :
    edgeCommand e s = [] ∨ ∃ c, IsCommand c ∧ s.enabled c = true ∧ edgeCommand e s = [c] := by
  cases hd : decodeCommand s.cfg.aw e.cWord with
  | error why => exact .inl (by simp only [edgeCommand, hd])
  | ok c =>
    by_cases hc : (e.cValid && s.enabled c) = true
    · have henabled : s.enabled c = true := (Bool.and_eq_true_iff.1 hc).2
      exact .inr ⟨c, isCommand_of_decodeCommand hd, henabled, by simp only [edgeCommand, hd, if_pos hc]⟩
    · exact .inl (by simp only [edgeCommand, hd, if_neg hc])

/-! What the operations before it at an edge leave of the condition of a later one. -/

/-- The last answer has no part in any condition. -/
theorem respond_enabled (s : State) (r : Response) (i : Instr) : (s.respond r).enabled i = s.enabled i := by
  cases i <;> rfl

/-- In a scan the only command whose condition holds is `NOP` (60_exceptions.md R181). -/
theorem command_eq_nop_of_scan {s : State} {c : Instr} (hscan : s.phase = .scan) (hc : IsCommand c)
    (henabled : s.enabled c = true) : c = .nop := by
  have hfill : s.phase ≠ .fill := (phase_ne_fill_iff s).2 hscan
  rcases hc with rfl | ⟨d, rfl | rfl⟩ | rfl
  · rfl
  · exact absurd ((canSample_iff s).1 henabled).1 hfill
  · exact absurd ((canSample_iff s).1 henabled).1 hfill
  · exact absurd ((canEnd_iff s).1 henabled) hfill

/-- A command writes no frame (10_state.md R29). -/
theorem performed_fq_of_isCommand {c : Instr} (hc : IsCommand c) (s : State) : (performed c s).fq = s.fq := by
  rcases hc with rfl | ⟨d, rfl | rfl⟩ | rfl
  · rfl
  · simp only [performed]; rw [takeSample_frame]; rfl
  · simp only [performed]; rw [takeSample_frame]; rfl
  · rfl

/-- A `POP` leaves an enabled step of the datapath enabled: it only makes room (42_slicer_gap.md R147). -/
theorem enabled_step_after_pop {s : State} {i : Instr} (hi : i ∈ [Instr.slice, .bit, .done]) (h : s.enabled i = true) :
    (performed .pop s).enabled i = true := by
  simp only [List.mem_cons, List.not_mem_nil, or_false] at hi
  rcases hi with rfl | rfl | rfl
  · exact h
  · obtain ⟨hscan, hpend, hroom⟩ := (canBit_iff s).1 h
    refine (canBit_iff _).2 ⟨hscan, hpend, fun n hn => ?_⟩
    exact (s.fq.tail_sublist.length_le).trans_lt (hroom n hn)
  · exact h

/-- In a scan the step that is due is one of the datapath's (10_state.md R22). -/
theorem due_mem_of_scan {s : State} (hscan : s.phase = .scan) : s.due ∈ [Instr.slice, .bit, .done] := by
  cases hpend : s.bitPending with
  | true => simp [due_of_bitPending hscan hpend]
  | false =>
    rcases Nat.lt_or_ge s.idx s.env.length with hidx | hidx
    · simp [due_of_index_left hscan hpend hidx]
    · simp [due_of_scanned hscan hpend hidx]

/-- The datapath's steps are enabled in a scan alone (60_exceptions.md R181). -/
theorem scan_of_enabled_step {s : State} {i : Instr} (hi : i ∈ [Instr.slice, .bit, .done]) (h : s.enabled i = true) :
    s.phase = .scan := by
  simp only [List.mem_cons, List.not_mem_nil, or_false] at hi
  rcases hi with rfl | rfl | rfl
  · exact ((canSlice_iff s).1 h).1
  · exact ((canBit_iff s).1 h).1
  · exact ((canDone_iff s).1 h).1

/-- In a scan the command of an edge leaves every condition as it is. -/
theorem enabled_after_edgeCommand (e : Edge) {s : State} (hscan : s.phase = .scan) (i : Instr) :
    (performAll (edgeCommand e s) s).enabled i = s.enabled i := by
  rcases edgeCommand_cases e s with hnone | ⟨c, hc, henabled, hone⟩
  · rw [hnone]; rfl
  · rw [hone, command_eq_nop_of_scan hscan hc henabled]
    exact respond_enabled s .performed i

theorem noneHeld_edgeCommand (e : Edge) (s : State) : NoneHeld (edgeCommand e s) s := by
  rcases edgeCommand_cases e s with hnone | ⟨c, _, henabled, hone⟩
  · rw [hnone]; trivial
  · rw [hone]; exact ⟨henabled, trivial⟩

theorem noneHeld_edgePop (e : Edge) (s : State) : NoneHeld (edgePop e) s := by
  unfold edgePop
  split
  · exact ⟨rfl, trivial⟩
  · trivial

theorem noneHeld_edgeStep (e : Edge) (s : State) :
    NoneHeld (edgeStep e s) (performAll (edgePop e) (performAll (edgeCommand e s) s)) := by
  by_cases h : (e.dStep && decide (s.phase = .scan) && s.enabled s.due) = true
  · rw [edgeStep, if_pos h]
    simp only [Bool.and_eq_true, decide_eq_true_eq] at h
    obtain ⟨⟨_, hscan⟩, hdue⟩ := h
    have hafter := (enabled_after_edgeCommand e hscan s.due).trans hdue
    refine ⟨?_, trivial⟩
    unfold edgePop
    split
    · exact enabled_step_after_pop (due_mem_of_scan hscan) hafter
    · exact hafter
  · rw [edgeStep, if_neg h]; trivial

/-- No operation of an edge is held (60_exceptions.md R185). -/
theorem noneHeld_edgeOps (e : Edge) (s : State) : NoneHeld (edgeOps e s) s := by
  cases hrst : e.rst with
  | true => rw [edgeOps_of_rst hrst]; exact ⟨rfl, trivial⟩
  | false =>
    rw [edgeOps_of_not_rst hrst, noneHeld_append, noneHeld_append, performAll_append]
    exact ⟨⟨noneHeld_edgeCommand e s, noneHeld_edgePop e _⟩, noneHeld_edgeStep e s⟩

/-- The command of an edge leaves the queue as it is. -/
theorem fq_after_edgeCommand (e : Edge) (s : State) : (performAll (edgeCommand e s) s).fq = s.fq := by
  rcases edgeCommand_cases e s with hnone | ⟨c, hc, _, hone⟩
  · rw [hnone]; rfl
  · rw [hone]; exact performed_fq_of_isCommand hc s

/-- No command is a step of the datapath. -/
theorem not_step_of_isCommand {c : Instr} (hc : IsCommand c) : c ∉ [Instr.slice, .bit, .done] := by
  rcases hc with rfl | ⟨d, rfl | rfl⟩ | rfl <;> simp

/-- A step of the datapath is taken at an edge exactly when the datapath steps there and the step is due and enabled. -/
theorem step_mem_edgeOps_iff {e : Edge} {s : State} {i : Instr} (hrst : e.rst = false)
    (hi : i ∈ [Instr.slice, .bit, .done]) :
    i ∈ edgeOps e s ↔ e.dStep = true ∧ s.due = i ∧ s.enabled i = true := by
  rw [mem_edgeOps_iff hrst, mem_edgeStep_iff]
  constructor
  · rintro (hcommand | hpop | ⟨hstep, _, hdue, henabled⟩)
    · obtain ⟨hd, _⟩ := (mem_edgeCommand_iff e s i).1 hcommand
      exact absurd hi (not_step_of_isCommand (isCommand_of_decodeCommand hd))
    · obtain ⟨_, rfl⟩ := (mem_edgePop_iff e i).1 hpop
      simp at hi
    · exact ⟨hstep, hdue, henabled⟩
  · rintro ⟨hstep, hdue, henabled⟩
    exact .inr (.inr ⟨hstep, scan_of_enabled_step hi henabled, hdue, henabled⟩)

/-- Settles O52: an edge performs the operations of its three agents, and none of them disables a later one. -/
theorem edgePerformsItsRequests : Obligations.EdgePerformsItsRequests := by
  intro e s
  refine ⟨fun hrst => ?reset, fun before i after hops => ?none_held, fun hrst hvalid i hi => ?command,
    fun hrst hpop => ?pop, fun hrst i hi => step_mem_edgeOps_iff hrst hi⟩
  case reset =>
    rw [clockEdge, edgeOps_of_rst hrst]
    exact execAll_cons_of_exec (exec_of_enabled rfl) []
  case none_held =>
    have hnone := noneHeld_edgeOps e s
    rw [hops, noneHeld_append, noneHeld_cons] at hnone
    obtain ⟨hbefore, henabled, _⟩ := hnone
    exact ⟨_, execAll_of_noneHeld hbefore, henabled⟩
  case command =>
    refine ⟨fun henabled => ?_, enabled_of_mem_edgeOps hrst⟩
    exact (mem_edgeOps_iff hrst s i).2 (.inl ((mem_edgeCommand_iff e s i).2 ⟨hi, hvalid, henabled⟩))
  case pop =>
    have hops : edgeOps e s = edgeCommand e s ++ .pop :: edgeStep e s := by
      rw [edgeOps_of_not_rst hrst, edgePop, if_pos hpop, List.append_assoc, List.singleton_append]
    refine ⟨_, _, _, _, hops, execAll_of_noneHeld (noneHeld_edgeCommand e s), exec_of_enabled rfl, ?_⟩
    exact congrArg (fun q => Response.frame q.head?) (fq_after_edgeCommand e s)

end Sys2Proof.Encoding
end

section
/-!
PROOFS. The operations of the block, one by one (40_block_control.md R101 to R108): what each does when it is performed, and when it is
held.
-/

namespace Sys2Proof.BlockControl

open Sys2Proof.Machine Sys2Proof.Safety Sys2Proof.Scope Sys2Proof.BlockState Sys2Proof.Memory Sys2Proof.Encoding

/-! ### `NOP` -/

theorem takeSample_respond (s : State) (r : Response) (d : Nat) :
    (s.respond r).takeSample d = (s.takeSample d).respond r := by
  by_cases hfull : s.win.length + 1 = s.cfg.w <;> simp [State.takeSample, State.envPush, State.respond, hfull]

theorem sliceIndex_respond (s : State) (r : Response) : (s.respond r).sliceIndex = s.sliceIndex.respond r := by
  rcases sliceIndex_cases s with ⟨hc, hg, hs⟩ | ⟨hno, hs⟩
  · rcases sliceIndex_cases (s.respond r) with ⟨_, _, hs'⟩ | ⟨hno, _⟩
    · rw [hs, hs']; rfl
    · exact absurd ⟨hc, hg⟩ hno
  · rcases sliceIndex_cases (s.respond r) with ⟨hc, hg, _⟩ | ⟨_, hs'⟩
    · exact absurd ⟨hc, hg⟩ hno
    · rw [hs, hs']; rfl

theorem deliverBit_respond (s : State) (r : Response) : (s.respond r).deliverBit = s.deliverBit.respond r := by
  rw [deliverBit_eq, deliverBit_eq, State.respond_pendf]
  split
  · exact accBits_respond { s with pendf := s.pendf - 1 } r [false]
  · exact accBits_respond { s with pendt := false } r [true]

/-- No operation reads the last answer (log 6). -/
theorem performed_respond (i : Instr) (s : State) (r : Response) : performed i (s.respond r) = performed i s := by
  cases i with
  | sample d => simp only [performed, takeSample_respond]; rfl
  | sampleLast d => simp only [performed, takeSample_respond]; rfl
  | slice => simp only [performed, sliceIndex_respond]; rfl
  | bit => simp only [performed, deliverBit_respond]; rfl
  | hdr len mark => simp only [performed, deliverBit_respond]; rfl
  | payload v => simp only [performed, deliverBit_respond]; rfl
  | rdreg n => rfl
  | nop => rfl
  | endBlock => rfl
  | done => rfl
  | pop => rfl
  | reset => rfl
  | gap g => rfl

/-- Operations performed one after another differ by the last answer before them in no more than the last answer after them. -/
theorem performAll_respond (ops : List Instr) (s : State) (r : Response) :
    { performAll ops s with resp := (performAll ops (s.respond r)).resp } = performAll ops (s.respond r) := by
  cases ops with
  | nil => rfl
  | cons i is => rw [performAll_cons, performAll_cons, performed_respond]

/-- Without `c_valid` an edge takes no command (30_encoding.md R81). -/
theorem edgeCommand_of_not_valid {e : Edge} (h : e.cValid = false) (s : State) : edgeCommand e s = [] := by
  refine List.eq_nil_iff_forall_not_mem.2 fun i hi => ?_
  obtain ⟨_, hvalid, _⟩ := (mem_edgeCommand_iff e s i).1 hi
  rw [h] at hvalid
  cases hvalid

/-- A `NOP` word presented is the command of its edge. -/
theorem edgeCommand_of_nop {e : Edge} {s : State} (hvalid : e.cValid = true) (hword : e.cWord < 2 ^ s.cfg.aw) :
    edgeCommand e s = [.nop] := by
  simp only [edgeCommand, decodeCommand_nop hword, hvalid, State.enabled, Bool.and_self, if_pos]

/-- A `NOP` presented at an edge goes before the operations of the other agents. -/
theorem edgeOps_with_nop {e : Edge} {s : State} {x : Nat} (hrst : e.rst = false) (hx : x < 2 ^ s.cfg.aw) :
    edgeOps { e with cValid := true, cWord := x } s = .nop :: (edgePop e ++ edgeStep e s) := by
  rw [edgeOps_of_not_rst (e := { e with cValid := true, cWord := x }) hrst, edgeCommand_of_nop rfl hx]
  rfl

/-- An edge performs its operations. -/
theorem clockEdge_eq (e : Edge) (s : State) : clockEdge e s = .next (performAll (edgeOps e s) s) :=
  execAll_of_noneHeld (noneHeld_edgeOps e s)

/-- An edge without `c_valid` and one with a `NOP` differ in the last answer alone. -/
theorem clockEdge_nop {e : Edge} {s : State} {x : Nat} (hvalid : e.cValid = false) (hx : x < 2 ^ s.cfg.aw) :
    ∃ t u, clockEdge e s = .next t ∧ clockEdge { e with cValid := true, cWord := x } s = .next u ∧
      { t with resp := u.resp } = u := by
  refine ⟨_, _, clockEdge_eq _ _, clockEdge_eq _ _, ?_⟩
  rcases Bool.eq_false_or_eq_true e.rst with hrst | hrst
  · rw [edgeOps_of_rst hrst, edgeOps_of_rst (e := { e with cValid := true, cWord := x }) hrst]
  · rw [edgeOps_with_nop hrst hx, edgeOps_of_not_rst hrst, edgeCommand_of_not_valid hvalid]
    exact performAll_respond (edgePop e ++ edgeStep e s) s .performed

/-- Settles O1: `NOP` only answers, and no operation of an edge reads that answer. -/
theorem nopChangesNothing : Obligations.NopChangesNothing := by
  intro s
  refine ⟨exec_of_enabled rfl, fun x hx => decodeCommand_nop hx, fun e x hvalid hx => clockEdge_nop hvalid hx,
    fun e i hvalid hi => ?_⟩
  cases hrst : e.rst with
  | true =>
    rw [edgeOps_of_rst hrst] at hi
    exact .inl (List.mem_singleton.1 hi)
  | false =>
    rcases (mem_edgeOps_iff hrst s i).1 hi with hcommand | hpop | hstep
    · rw [edgeCommand_of_not_valid hvalid] at hcommand
      cases hcommand
    · obtain ⟨_, hi⟩ := (mem_edgePop_iff e i).1 hpop
      exact .inr (.inl hi)
    · obtain ⟨_, hscan, rfl, _⟩ := (mem_edgeStep_iff e s i).1 hstep
      exact .inr (.inr (due_mem_of_scan hscan))

/-! ### Samples and the end of a block -/

theorem sampleValue_eq (c : Config) (d : Nat) : sampleValue c d = (d : Rat) / 2 ^ c.af := by
  rw [sampleValue, Nat.cast_pow, Nat.cast_ofNat]

/-- What a sample does to the stores, with its value written out (40_block_control.md R102, 41_envelope.md R121). -/
theorem takeSample_cases (s : State) (d : Nat) :
    (s.win.length + 1 = s.cfg.w ∧
      s.takeSample d =
        { s with
          win := (s.win ++ [(d : Rat) / 2 ^ s.cfg.af]).tail
          env := s.env ++ [((s.win ++ [(d : Rat) / 2 ^ s.cfg.af]).sum * s.cfg.g) / s.cfg.w]
          cnt := s.cnt + 1 }) ∨
    (s.win.length + 1 ≠ s.cfg.w ∧
      s.takeSample d = { s with win := s.win ++ [(d : Rat) / 2 ^ s.cfg.af], cnt := s.cnt + 1 }) := by
  rw [← sampleValue_eq, takeSample_frame]
  rcases envPush_cases s (sampleValue s.cfg d) with ⟨hfull, hs⟩ | ⟨hfull, hs⟩
  · exact .inl ⟨hfull, by rw [hs]; rfl⟩
  · exact .inr ⟨hfull, by rw [hs]⟩

/-- In a scan and with `CNT = NMAX` no sample is taken (60_exceptions.md R181). -/
theorem canSample_eq_false {s : State} (h : s.phase = .scan ∨ ∃ n, s.cfg.nmax = some n ∧ n ≤ s.cnt) :
    s.canSample = false := by
  rw [Bool.eq_false_iff]
  intro hcan
  obtain ⟨hfill, hroom⟩ := (canSample_iff s).1 hcan
  rcases h with hscan | ⟨n, hn, hle⟩
  · exact (phase_ne_fill_iff s).2 hscan hfill
  · exact absurd (hroom n hn) hle.not_gt

/-- Settles O2, by whether the window is full with the new sample. -/
theorem sampleEntersWindow : Obligations.SampleEntersWindow := by
  intro s d
  refine ⟨fun hfill hroom => ?performed, fun hheld => ?held, fun hd => ?word⟩
  case performed =>
    rw [exec_of_enabled (i := .sample d) ((canSample_iff s).2 ⟨hfill, hroom⟩), performed]
    rcases takeSample_cases s d with ⟨hfull, hs⟩ | ⟨hfull, hs⟩
    · rw [if_pos hfull, hs]; rfl
    · rw [if_neg hfull, hs]; rfl
  case held => exact exec_of_not_enabled (i := .sample d) (canSample_eq_false hheld)
  case word => rw [← Nat.one_mul (2 ^ s.cfg.aw)]; exact decodeCommand_sample hd

/-- Settles O3: the sample leaves the phase as it is, so `END` can follow it. -/
theorem sampleLastIsSampleThenEnd : Obligations.SampleLastIsSampleThenEnd := by
  intro s d
  refine ⟨fun hfill hroom => ?performed, fun hheld => ?held, fun hd => decodeCommand_sampleLast hd⟩
  case performed =>
    have hcan : s.canSample = true := (canSample_iff s).2 ⟨hfill, hroom⟩
    have hopen : (performed (.sample d) s).phase = .fill := by
      rw [performed, takeSample_frame]; exact hfill
    refine ⟨performed (.sample d) s, performed (.sampleLast d) s, exec_of_enabled (i := .sample d) hcan, rfl,
      exec_of_enabled (i := .endBlock) ((canEnd_iff _).2 hopen), rfl, exec_of_enabled (i := .sampleLast d) hcan, ?_⟩
    rw [performed]
    rcases takeSample_cases s d with ⟨hfull, hs⟩ | ⟨hfull, hs⟩
    · rw [hs]; simp [hfull, State.closeBlock, State.respond]
    · rw [hs]; simp [hfull, State.closeBlock, State.respond]
  case held => exact exec_of_not_enabled (i := .sampleLast d) (canSample_eq_false hheld)

/-- Where the registers of the scan and the accumulator hold their `FILL` values, closing the block changes the phase alone
(40_block_control.md R104). -/
theorem closeBlock_of_fillOk {s : State} (hfill : s.phase = .fill) (h : FillOk s) :
    s.closeBlock = { s with phase := .scan } := by
  obtain ⟨hidx, hlast, hpendf, hpendt, hexplen, hpay, hpbyte, hpbits⟩ := h hfill
  rw [State.closeBlock, hidx, hlast, hpendf, hpendt, hexplen, hpay, hpbyte, hpbits]

/-- Settles O4. -/
theorem endClosesBlock : Obligations.EndClosesBlock := by
  intro s
  have hperformed : s.phase = .fill → exec .endBlock s = .next (s.closeBlock.respond .performed) := fun hfill =>
    exec_of_enabled ((canEnd_iff s).2 hfill)
  refine ⟨hperformed, fun hfill hok => ?fresh, fun hscan => ?held, fun x hx => decodeCommand_endBlock hx⟩
  case fresh => rw [hperformed hfill, closeBlock_of_fillOk hfill hok]; rfl
  case held =>
    have hcannot : s.canEnd = false := by
      rw [Bool.eq_false_iff, ne_eq, canEnd_iff]
      exact (phase_ne_fill_iff s).2 hscan
    exact exec_of_not_enabled hcannot

/-- Settles O5: the held cases are those in which a conjunct of the require line fails. -/
theorem doneDiscardsBlock : Obligations.DoneDiscardsBlock := by
  intro s
  refine ⟨fun hscan hidx hf ht => exec_of_enabled ((canDone_iff s).2 ⟨hscan, hidx, hf, ht⟩), fun hheld => ?_⟩
  have hcannot : s.canDone = false := by
    rw [Bool.eq_false_iff]
    intro hcan
    obtain ⟨hscan, hidx, hf, ht⟩ := (canDone_iff s).1 hcan
    rcases hheld with hfill | hleft | hpend | hpend
    · exact (phase_ne_scan_iff s).2 hfill hscan
    · exact hleft hidx
    · exact hpend.ne' hf
    · rw [ht] at hpend; cases hpend
  exact exec_of_not_enabled hcannot

/-! ### `POP` and `RESET` -/

/-- Settles O6, for a queue with a head and for an empty one. -/
theorem popReturnsOldestFrame : Obligations.PopReturnsOldestFrame := by
  intro s
  have hpop : exec .pop s = .next { s with fq := s.fq.tail, resp := .frame s.fq.head? } := exec_of_enabled rfl
  refine ⟨fun f rest hq => ?head, fun hq => ?empty, rfl⟩
  case head => rw [hpop, hq]; rfl
  case empty => rw [hpop, hq, List.tail_nil, List.head?_nil]

/-- Settles O9: `RESET` clears the block, the phase and the queue, and that is every element. -/
theorem resetRestoresEveryElement : Obligations.ResetRestoresEveryElement :=
  fun _ => ⟨exec_of_enabled rfl, rfl⟩

end Sys2Proof.BlockControl
end

section
/-!
PROOFS. Whole blocks (40_block_control.md R110, R111): the datapath's step that is enabled, and that a block delivers `DecodeBlock` of its
samples, alone in a counted number of steps (70_reset_and_hazards.md R216) and among the turns of every other agent. The bits and the
frames that a scan still delivers are a function of its state; each step keeps, or moves into the queue, what is still to come.
-/

namespace Sys2Proof.BlockControl

open Sys2Proof.Machine Sys2Proof.Safety Sys2Proof.Scope Sys2Proof.BlockState Sys2Proof.Memory Sys2Proof.Encoding

/-! ### The step that is enabled -/

/-- An enabled step of the datapath is the one that is due (10_state.md R22). -/
theorem due_eq_of_enabled {s : State} {i : Instr} (hi : i ∈ [Instr.slice, .bit, .done]) (h : s.enabled i = true) :
    s.due = i := by
  simp only [List.mem_cons, List.not_mem_nil, or_false] at hi
  rcases hi with rfl | rfl | rfl
  · obtain ⟨hscan, hidx, hpend⟩ := (canSlice_iff s).1 h
    exact due_of_index_left hscan ((bitPending_false_iff s).2 hpend) hidx
  · obtain ⟨hscan, hpend, _⟩ := (canBit_iff s).1 h
    exact due_of_bitPending hscan ((bitPending_iff s).2 hpend)
  · obtain ⟨hscan, hidx, hpend⟩ := (canDone_iff s).1 h
    exact due_of_scanned hscan ((bitPending_false_iff s).2 hpend) hidx.ge

/-- The step that is due goes on with the scan or ends it (10_state.md R22). -/
theorem due_cases_of_scan {s : State} (hscan : s.phase = .scan) : (s.due = .slice ∨ s.due = .bit) ∨ s.due = .done := by
  simpa [or_assoc] using due_mem_of_scan hscan

/-- In a scan the step that is due is enabled, unless it is a `BIT` without room in the queue (60_exceptions.md R181). -/
theorem enabled_due {s : State} (hinv : BlockInv s) (hscan : s.phase = .scan)
    (hroom : s.bitPending = true → ∀ n, s.cfg.fqDepth = some n → s.fq.length < n) : s.enabled s.due = true := by
  obtain ⟨_, _, ⟨hidx, _⟩, _⟩ := hinv
  cases hpend : s.bitPending with
  | true =>
    rw [due_of_bitPending hscan hpend]
    exact (canBit_iff s).2 ⟨hscan, (bitPending_iff s).1 hpend, hroom hpend⟩
  | false =>
    have hnone := (bitPending_false_iff s).1 hpend
    rcases hidx.lt_or_eq with hleft | hend
    · rw [due_of_index_left hscan hpend hleft]
      exact (canSlice_iff s).2 ⟨hscan, hleft, hnone⟩
    · rw [due_of_scanned hscan hpend hend.ge]
      exact (canDone_iff s).2 ⟨hscan, hend, hnone⟩

/-- Settles O28: an enabled step is the one due, which is enabled but for a pending bit that meets a full queue. -/
theorem oneDatapathStepIsEnabled : Obligations.OneDatapathStepIsEnabled := by
  intro s hinv hscan
  have ⟨_, _, _, _, _, _, hqueue, _⟩ := hinv
  refine ⟨fun i j hi hj hei hej => ?one, ⟨fun hnone => ?stuck, fun ⟨hpend, hfull⟩ i hi => ?blocked⟩,
    fun i hi => due_eq_of_enabled hi⟩
  case one => exact (due_eq_of_enabled hi hei).symm.trans (due_eq_of_enabled hj hej)
  case stuck =>
    have hdue : s.enabled s.due = false := hnone s.due (due_mem_of_scan hscan)
    obtain ⟨hpend, n, hn, hle⟩ : s.bitPending = true ∧ ∃ n, s.cfg.fqDepth = some n ∧ n ≤ s.fq.length := by
      by_contra hno
      rw [enabled_due hinv hscan fun hpend n hn => by by_contra hle; exact hno ⟨hpend, n, hn, not_lt.1 hle⟩] at hdue
      cases hdue
    have hmax : s.fq.length ≤ n := (atMost_iff _ _).1 hqueue n hn
    exact ⟨(bitPending_iff s).1 hpend, hn.trans (congrArg some (le_antisymm hle hmax))⟩
  case blocked =>
    rw [Bool.eq_false_iff]
    intro henabled
    have hbit : i = .bit :=
      (due_eq_of_enabled hi henabled).symm.trans (due_of_bitPending hscan ((bitPending_iff s).2 hpend))
    rw [hbit] at henabled
    obtain ⟨_, _, hroom⟩ := (canBit_iff s).1 henabled
    exact absurd (hroom _ hfull) (Nat.lt_irrefl _)

/-! ### The envelope of a block -/

/-- A trace with no full window has no envelope value (41_envelope.md R126). -/
theorem envelopeTrace_short {c : Config} {a : List Rat} (h : a.length < c.w) : envelopeTrace c a = [] := by
  rw [envelopeTrace, Nat.sub_eq_zero_of_le h, List.range_zero, List.map_nil]

/-- The number of envelope values of a trace (10_state.md R27). -/
theorem envelopeTrace_length (c : Config) (a : List Rat) : (envelopeTrace c a).length = a.length + 1 - c.w := by
  rw [envelopeTrace, List.length_map, List.length_range]

/-- A sample that fills a window gives one more envelope value, that of the last window (41_envelope.md R122). -/
theorem envelopeTrace_append {c : Config} {a : List Rat} (hw : 1 ≤ c.w) (h : c.w ≤ a.length + 1) (x : Rat) :
    envelopeTrace c (a ++ [x]) = envelopeTrace c a ++ [windowValue c (a.drop (a.length - (c.w - 1)) ++ [x])] := by
  have hcount : (a ++ [x]).length + 1 - c.w = (a.length + 1 - c.w) + 1 := by
    rw [List.length_append, List.length_singleton]; omega
  rw [envelopeTrace, hcount, List.range_succ, List.map_append, List.map_singleton]
  congr 1
  · refine List.map_congr_left fun k hk => ?_
    have hlt : k < a.length + 1 - c.w := List.mem_range.1 hk
    rw [List.drop_append_of_le_length (by omega),
      List.take_append_of_le_length (by rw [List.length_drop]; omega)]
  · have hstart : a.length + 1 - c.w = a.length - (c.w - 1) := by omega
    rw [hstart, List.drop_append_of_le_length (Nat.sub_le _ _), List.take_of_length_le, windowValue, mul_comm]
    rw [List.length_append, List.length_drop, List.length_singleton]; omega

/-- The block holds the samples `a`: the envelope values of their full windows, and the last `W - 1` of them in the window
(10_state.md R27, R28). -/
def HoldsSamples (s : State) (a : List Rat) : Prop :=
  s.env = envelopeTrace s.cfg a ∧ s.win = a.drop (a.length - (s.cfg.w - 1))

/-- One sample more (40_block_control.md R102). -/
theorem takeSample_holdsSamples {s : State} {a : List Rat} (hw : 1 ≤ s.cfg.w) (h : HoldsSamples s a) (d : Nat) :
    HoldsSamples (s.takeSample d) (a ++ [sampleValue s.cfg d]) := by
  obtain ⟨henv, hwin⟩ := h
  have hlen : s.win.length = a.length - (a.length - (s.cfg.w - 1)) := by rw [hwin, List.length_drop]
  have hnew : s.win ++ [sampleValue s.cfg d] = (a ++ [sampleValue s.cfg d]).drop (a.length - (s.cfg.w - 1)) := by
    rw [hwin, List.drop_append_of_le_length (Nat.sub_le _ _)]
  have hcount : (a ++ [sampleValue s.cfg d]).length = a.length + 1 := List.length_append
  rw [takeSample_frame, HoldsSamples, hcount]
  rcases envPush_cases s (sampleValue s.cfg d) with ⟨hfull, hs⟩ | ⟨hfull, hs⟩ <;> rw [hs] <;> dsimp only
  · have hstart : a.length - (s.cfg.w - 1) + 1 = a.length + 1 - (s.cfg.w - 1) := by omega
    exact ⟨by rw [envelopeTrace_append hw (by omega), ← hwin, ← henv], by rw [hnew, List.tail_drop, hstart]⟩
  · have hshort : a.length + 1 < s.cfg.w := by omega
    have hstart : a.length - (s.cfg.w - 1) = a.length + 1 - (s.cfg.w - 1) := by omega
    exact ⟨by rw [henv, envelopeTrace_short (by omega), envelopeTrace_short (by omega)], by rw [hnew, hstart]⟩

/-- The envelope after the samples of `codes`. -/
def envAfter (s : State) (codes : List Nat) : List Rat := (codes.foldl State.takeSample s).env

theorem takeSample_cfg (s : State) (d : Nat) : (s.takeSample d).cfg = s.cfg := by rw [takeSample_frame]

/-- The envelope to come depends on the configuration, the window and the envelope alone. -/
theorem envAfter_congr {s t : State} (hcfg : s.cfg = t.cfg) (hwin : s.win = t.win) (henv : s.env = t.env)
    (codes : List Nat) : envAfter s codes = envAfter t codes := by
  induction codes generalizing s t with
  | nil => exact henv
  | cons d rest ih =>
    refine ih (s := s.takeSample d) (t := t.takeSample d) ?_ ?_ ?_
    · rw [takeSample_cfg, takeSample_cfg, hcfg]
    · simp only [State.takeSample, State.envPush, hcfg, hwin, henv]
      split <;> rfl
    · simp only [State.takeSample, State.envPush, hcfg, hwin, henv]
      split <;> rfl

/-- The samples of a block leave its envelope (40_block_control.md R111). -/
theorem envAfter_of_holdsSamples {s : State} {a : List Rat} (hw : 1 ≤ s.cfg.w) (h : HoldsSamples s a) (codes : List Nat) :
    envAfter s codes = envelopeTrace s.cfg (a ++ codes.map (sampleValue s.cfg)) := by
  induction codes generalizing s a with
  | nil => rw [List.map_nil, List.append_nil]; exact h.1
  | cons d rest ih =>
    have hcfg := takeSample_cfg s d
    have := ih (s := s.takeSample d) (hcfg ▸ hw) (takeSample_holdsSamples hw h d)
    rw [hcfg, List.append_assoc] at this
    exact this

/-! ### The bits and the frames still to come -/

/-- A block just reset, with the accumulator of `s`: what the bits to come make of it does not depend on the queue. -/
def loneAccumulator (s : State) : State :=
  { withAccumulator (State.initial Config.default) s with fq := [] }

/-- A byte does to the accumulator what it does without the queue, and to the queue no more than to append. -/
theorem accByte_lone (s : State) (v : Byte) :
    (s.accByte v).fq = s.fq ++ ((loneAccumulator s).accByte v).fq ∧
      loneAccumulator ((loneAccumulator s).accByte v) = loneAccumulator (s.accByte v) := by
  rcases accByte_cases s v with ⟨h0, _⟩ | ⟨h0, hmore, _⟩ | ⟨h0, hfull, _⟩
  · simp [h0, State.accByte, loneAccumulator, withAccumulator]
  · simp [h0, hmore, State.accByte, loneAccumulator, withAccumulator]
  · simp [h0, hfull, State.accByte, State.frameEmit, loneAccumulator, withAccumulator]

/-- A bit does to the accumulator what it does without the queue, and to the queue no more than to append. -/
theorem accBit_lone (s : State) (b : Bool) :
    (s.accBit b).fq = s.fq ++ ((loneAccumulator s).accBit b).fq ∧
      loneAccumulator ((loneAccumulator s).accBit b) = loneAccumulator (s.accBit b) := by
  by_cases h7 : s.pbits = 7
  · have := accByte_lone { s with pbyte := 0, pbits := 0 } (nextPartial s b)
    simpa [State.accBit, h7, loneAccumulator, withAccumulator, nextPartial] using this
  · simp [State.accBit, h7, loneAccumulator, withAccumulator, nextPartial]

/-- The frames that the accumulator makes of the bits `bs`. -/
def framesOf (s : State) (bs : List Bool) : List Frame := ((loneAccumulator s).accBits bs).fq

/-- Bits append to the queue the frames that the accumulator makes of them (43_deserializer_frame.md R163). -/
theorem accBits_fq (bs : List Bool) (s : State) : (s.accBits bs).fq = s.fq ++ framesOf s bs := by
  induction bs generalizing s with
  | nil => simp [framesOf, loneAccumulator]
  | cons b bs ih =>
    obtain ⟨hfq, hlone⟩ := accBit_lone s b
    rw [framesOf, accBits_cons, accBits_cons, ih, ih, framesOf, framesOf, hlone, hfq, List.append_assoc]

/-- The bits of the marked edge that are still to be delivered (20_memory.md R61). -/
def pendingBits (s : State) : List Bool := if s.pendt then List.replicate s.pendf false ++ [true] else []

/-- The bits of the indices that are still to be examined (40_block_control.md R111). -/
def unscannedBits (s : State) : List Bool :=
  scanBits s.cfg s.env (mean s.env) (List.range' s.idx (s.env.length - s.idx)) s.last

/-- The bits that the scan will still deliver. -/
def bitsToCome (s : State) : List Bool := pendingBits s ++ unscannedBits s

/-- The frames that the scan will still deliver. -/
def framesToCome (s : State) : List Frame := framesOf s (bitsToCome s)

theorem pendingBits_of_none {s : State} (h : s.bitPending = false) : pendingBits s = [] := by
  obtain ⟨_, hpendt⟩ := (bitPending_false_iff s).1 h
  simp [pendingBits, hpendt]

/-- At the start of a scan all bits of the block are to come (40_block_control.md R104, R111). -/
theorem bitsToCome_closeBlock (s : State) : bitsToCome s.closeBlock = blockBits s.cfg s.env := by
  have hnone : pendingBits s.closeBlock = [] := pendingBits_of_none rfl
  rw [bitsToCome, hnone, List.nil_append, blockBits, List.range_eq_range']
  split
  next hempty => rw [unscannedBits, State.closeBlock_env, hempty]; rfl
  next => rfl

theorem framesToCome_closeBlock (s : State) : framesToCome s.closeBlock = blockFrames (blockBits s.cfg s.env) := by
  rw [framesToCome, bitsToCome_closeBlock]
  rfl

/-- `SLICE` moves the bits of its index, if it is marked, from the indices to the pending ones (42_slicer_gap.md R141, R146). -/
theorem bitsToCome_sliceIndex {s : State} (hperiod : 1 ≤ s.cfg.period) (h : s.canSlice = true) :
    bitsToCome s.sliceIndex = bitsToCome s := by
  obtain ⟨_, hidx, hpend⟩ := (canSlice_iff s).1 h
  have hnone : pendingBits s = [] := pendingBits_of_none ((bitPending_false_iff s).2 hpend)
  have hrange : List.range' s.idx (s.env.length - s.idx) =
      s.idx :: List.range' (s.idx + 1) (s.env.length - (s.idx + 1)) := by
    rw [← List.range'_succ]; congr 1; omega
  have htest : (max 0 (s.env.getD s.idx 0 - mean s.env) > s.cfg.thr ∧ s.idx - s.last > s.cfg.mingap) ↔
      (isCandidate s.cfg s.env s.idx = true ∧ s.gapTimer > s.cfg.mingap) := by
    simp [isCandidate, rect, State.gapTimer]
  rw [bitsToCome, bitsToCome, hnone, List.nil_append, unscannedBits, unscannedBits, hrange, scanBits]
  rcases sliceIndex_cases s with ⟨hc, hg, hs⟩ | ⟨hno, hs⟩
  · rw [if_pos (htest.2 ⟨hc, hg⟩), gapBits_eq hperiod, hs]
    rfl
  · rw [if_neg (fun hyes => hno (htest.1 hyes)), hs]
    simp only [pendingBits, hpend.2]
    rfl

/-- `SLICE` leaves the frames to come as they are. -/
theorem framesToCome_sliceIndex {s : State} (hperiod : 1 ≤ s.cfg.period) (h : s.canSlice = true) :
    framesToCome s.sliceIndex = framesToCome s := by
  rw [framesToCome, bitsToCome_sliceIndex hperiod h]
  obtain ⟨k, l, a, c, hs⟩ := sliceIndex_shape s
  rw [hs]
  rfl

/-- `BIT` takes the first pending bit (42_slicer_gap.md R147). -/
theorem pendingBits_deliverBit {s : State} (hpend : s.bitPending = true) (htrue : 0 < s.pendf → s.pendt = true) :
    pendingBits s = s.nextBit :: pendingBits s.deliverBit := by
  have hf := deliverBit_pendf s
  have ht := deliverBit_pendt s
  rcases Nat.eq_zero_or_pos s.pendf with h0 | hpos
  · have hpendt : s.pendt = true := ((bitPending_iff s).1 hpend).resolve_left (by omega)
    simp [pendingBits, State.nextBit, ht, h0, hpendt]
  · obtain ⟨n, hn⟩ := Nat.exists_eq_add_of_le' hpos
    have hpendt := htrue hpos
    simp [pendingBits, State.nextBit, hf, ht, hn, hpendt, List.replicate_succ]

/-- `BIT` takes the first of the bits to come. -/
theorem bitsToCome_deliverBit {s : State} (hpend : s.bitPending = true) (htrue : 0 < s.pendf → s.pendt = true) :
    bitsToCome s = s.nextBit :: bitsToCome s.deliverBit := by
  have hrest : unscannedBits s.deliverBit = unscannedBits s := by
    obtain ⟨a, c, e, p, y, n, q, hs⟩ := deliverBit_shape s
    rw [hs]
    rfl
  rw [bitsToCome, bitsToCome, pendingBits_deliverBit hpend htrue, hrest, List.cons_append]

/-- The pending registers take no part in what the accumulator makes of bits. -/
theorem accBits_noPending_fq (s : State) (bs : List Bool) : ((noPending s).accBits bs).fq = (s.accBits bs).fq := by
  rw [noPending, accBits_pending]

/-- `BIT` gives its bit to the accumulator. -/
theorem accBits_deliverBit_fq (s : State) (bs : List Bool) :
    (s.deliverBit.accBits bs).fq = (s.accBits (s.nextBit :: bs)).fq := by
  rw [← accBits_noPending_fq, ← accBits_noPending_fq s, accBits_cons]
  rcases Nat.eq_zero_or_pos s.pendf with h0 | hpos
  · have hnext : s.nextBit = true := by simp [State.nextBit, h0]
    rw [hnext, deliverBit_of_pendf_zero h0, accBits_noPending_fq]
  · have hnext : s.nextBit = false := by simp [State.nextBit, hpos]
    rw [hnext, noPending_deliverBit_of_pendf_pos hpos]

/-- `BIT` moves a frame that it completes from those to come to the queue. -/
theorem framesToCome_deliverBit {s : State} (hpend : s.bitPending = true) (htrue : 0 < s.pendf → s.pendt = true) :
    s.deliverBit.fq ++ framesToCome s.deliverBit = s.fq ++ framesToCome s := by
  rw [framesToCome, framesToCome, ← accBits_fq, ← accBits_fq, bitsToCome_deliverBit hpend htrue, accBits_deliverBit_fq]

/-- Where `DONE` is performed nothing is to come (40_block_control.md R105). -/
theorem bitsToCome_of_canDone {s : State} (h : s.canDone = true) : bitsToCome s = [] := by
  obtain ⟨_, hidx, hpend⟩ := (canDone_iff s).1 h
  rw [bitsToCome, pendingBits_of_none ((bitPending_false_iff s).2 hpend), unscannedBits, hidx, Nat.sub_self]
  rfl

theorem framesToCome_of_canDone {s : State} (h : s.canDone = true) : framesToCome s = [] := by
  rw [framesToCome, bitsToCome_of_canDone h]
  rfl

/-! ### Runs -/

/-- A run's first step, and the run that goes on from it. -/
theorem step_of_run_succ {k : Nat} {s t : State} (h : Host.Core.run Sys2Proof.core (k + 1) s = .next t) :
    ∃ u, step s = .next u ∧ Host.Core.run Sys2Proof.core k u = .next t := by
  cases hstep : step s with
  | next u => exact ⟨u, rfl, (run_succ_of_step hstep k).symm.trans h⟩
  | fault f => cases f
  | refused r =>
    have hcore : Sys2Proof.core.step s = .refused r := hstep
    simp only [Host.Core.run, hcore] at h
    cases h

/-- A run of `j + k` steps goes on for `k` steps from where `j` steps end. -/
theorem run_add {j : Nat} {s u : State} (h : Host.Core.run Sys2Proof.core j s = .next u) (k : Nat) :
    Host.Core.run Sys2Proof.core (j + k) s = Host.Core.run Sys2Proof.core k u := by
  induction j generalizing s with
  | zero => cases h; rw [Nat.zero_add]
  | succ j ih =>
    obtain ⟨v, hstep, hrun⟩ := step_of_run_succ h
    rw [Nat.succ_add, run_succ_of_step hstep, ih hrun]

/-- Every number of steps keeps the invariant. -/
theorem run_keeps_blockInv {k : Nat} {s t : State} (h : BlockInv s) (ht : Host.Core.run Sys2Proof.core k s = .next t) :
    BlockInv t := by
  induction k generalizing s with
  | zero => cases ht; exact h
  | succ k ih =>
    obtain ⟨u, hstep, hrun⟩ := step_of_run_succ ht
    exact ih (stepKeepsInvariant s u h hstep) hrun

/-- A step leaves the configuration as it is and uses up one turn (00_scope.md R5, log 3). -/
theorem step_cfg_requests {s t : State} (h : step s = .next t) : t.cfg = s.cfg ∧ t.requests = s.requests.tail := by
  obtain ⟨i, _, hexec⟩ := step_cases h
  obtain ⟨hcfg, hrequests, _⟩ := elementsChangeOnlyByTheirWriters i _ t hexec
  exact ⟨hcfg, hrequests⟩

theorem popLog_succ_of_step {s t : State} (h : step s = .next t) (k : Nat) :
    popLog (k + 1) s = t.returned ++ popLog k t := by
  simp only [popLog, h]

/-! ### The start and the end of a block -/

/-- Every per-block element has its reset value (40_block_control.md R109). -/
def AtReset (s : State) : Prop :=
  s = { State.initial s.cfg with requests := s.requests, resp := s.resp, fq := s.fq }

theorem AtReset.phase {s : State} (h : AtReset s) : s.phase = .fill := congrArg State.phase h

/-- What an open block holds before its first sample (40_block_control.md R104, R109). -/
theorem atReset_of_empty {s : State} (h : BlockInv s) (hphase : s.phase = .fill) (hcnt : s.cnt = 0) : AtReset s := by
  obtain ⟨hlegal, ⟨_, hwin, henv, _⟩, _, _, _, hfill, _⟩ := h
  obtain ⟨hidx, hlast, hpendf, hpendt, hexplen, hpay, hpbyte, hpbits⟩ := hfill hphase
  have hw := legal_w_pos hlegal
  have hwin0 : s.win = [] := List.length_eq_zero_iff.1 (by rw [hwin, hcnt, Nat.zero_min])
  have henv0 : s.env = [] := List.length_eq_zero_iff.1 (by rw [henv, hcnt]; omega)
  clear hwin henv
  obtain ⟨cfg, requests, resp, phase, cnt, win, env, idx, last, pendf, pendt, explen, pay, pbyte, pbits, fq⟩ := s
  subst hphase hcnt hwin0 henv0 hidx hlast hpendf hpendt hexplen hpay hpbyte hpbits
  rfl

/-- At rest, what is not a per-block element is the turns to come, the queue and the last answer. -/
theorem AtReset.initial_eq {s : State} (h : AtReset s) (rs : List Request) (q : List Frame) (r : Response) :
    { State.initial s.cfg with requests := rs, fq := q, resp := r } = { s with requests := rs, fq := q, resp := r } :=
  (congrArg (fun t : State => { t with requests := rs, fq := q, resp := r }) h).symm

/-! ### The producer's turns in a block -/

/-- The block is open and takes the samples of `codes`: it has room for them, and each has `AW` bits. -/
structure Filling (s : State) (codes : List Nat) : Prop where
  phase : s.phase = .fill
  room : ∀ n, s.cfg.nmax = some n → s.cnt + codes.length ≤ n
  width : ∀ d ∈ codes, d < 2 ^ s.cfg.aw

/-- The requests by which a producer sends the samples of `codes` and closes the block, by `END` or by `SAMPLE_LAST`. -/
inductive Closes (aw : Nat) : List Nat → List Request → Prop where
  | endBlock : Closes aw [] [encode aw .endBlock]
  | sampleLast (d : Nat) : Closes aw [d] [encode aw (.sampleLast d)]
  | sample (d : Nat) {codes : List Nat} {rs : List Request} :
      Closes aw codes rs → Closes aw (d :: codes) (encode aw (.sample d) :: rs)

theorem closes_blockOps (aw : Nat) (codes : List Nat) : Closes aw codes (requestsOf aw (blockOps codes)) := by
  induction codes with
  | nil => exact .endBlock
  | cons d rest ih => exact .sample d ih

theorem closes_sampleLast (aw : Nat) (first : List Nat) (d : Nat) :
    Closes aw (first ++ [d]) (requestsOf aw (first.map .sample ++ [.sampleLast d])) := by
  induction first with
  | nil => exact .sampleLast d
  | cons e rest ih => exact .sample e ih

/-- A waiting request has its turn: what it decodes to runs in the state without it. -/
theorem step_of_requests_cons {s : State} {r : Request} {rest : List Request} {i : Instr} (h : s.requests = r :: rest)
    (hd : decode s.context r = .ok i) : step s = exec i { s with requests := rest } := by
  rw [step_of_fetch ((fetch_of_requests_cons h).trans hd), turnTaken_of_requests_cons h]

theorem Filling.canSample {s : State} {d : Nat} {codes : List Nat} (h : Filling s (d :: codes)) : s.canSample = true :=
  (canSample_iff s).2 ⟨h.phase, fun n hn => by
    have := h.room n hn
    rw [List.length_cons] at this
    omega⟩

/-- The block with one sample more and the turns `rest` still to come. -/
def sampleTurn (s : State) (rest : List Request) (d : Nat) : State := { s with requests := rest }.takeSample d

/-- A sample writes the stores alone (10_state.md R27, R28). -/
theorem sampleTurn_frame (s : State) (rest : List Request) (d : Nat) :
    (sampleTurn s rest d).cfg = s.cfg ∧ (sampleTurn s rest d).requests = rest ∧ (sampleTurn s rest d).fq = s.fq := by
  rw [sampleTurn, takeSample_frame]
  exact ⟨rfl, rfl, rfl⟩

/-- The envelope to come is the same after the first sample as before it. -/
theorem envAfter_sampleTurn (s : State) (rest : List Request) (d : Nat) (codes : List Nat) :
    envAfter (sampleTurn s rest d) codes = envAfter s (d :: codes) :=
  envAfter_congr (s := { s with requests := rest }) (t := s) rfl rfl rfl (d :: codes)

/-- The last answer has no part in the envelope to come. -/
theorem envAfter_respond (s : State) (r : Response) (codes : List Nat) : envAfter (s.respond r) codes = envAfter s codes :=
  envAfter_congr (s := s.respond r) (t := s) rfl rfl rfl codes

/-- After its first sample the block takes the other ones. -/
theorem Filling.tail {s : State} {d : Nat} {codes : List Nat} (h : Filling s (d :: codes)) (rest : List Request)
    (r : Response) : Filling ((sampleTurn s rest d).respond r) codes := by
  rw [sampleTurn, takeSample_frame]
  refine ⟨h.phase, fun n hn => ?_, fun e he => h.width e (List.mem_cons_of_mem d he)⟩
  have := h.room n hn
  rw [List.length_cons] at this
  show s.cnt + 1 + codes.length ≤ n
  omega

/-- The turn of `SAMPLE d` in an open block (40_block_control.md R102). -/
theorem step_sample {s : State} {d : Nat} {codes : List Nat} {rest : List Request} (h : Filling s (d :: codes))
    (hrequests : s.requests = encode s.cfg.aw (.sample d) :: rest) :
    step s = .next ((sampleTurn s rest d).respond .performed) := by
  have hdecode : decode s.context (encode s.cfg.aw (.sample d)) = .ok (.sample d) :=
    decodeCommand_sample (h.width d List.mem_cons_self)
  rw [step_of_requests_cons hrequests hdecode]
  exact exec_of_enabled h.canSample

/-- The turn of `SAMPLE_LAST d` in an open block (40_block_control.md R103). -/
theorem step_sampleLast {s : State} {d : Nat} {codes : List Nat} {rest : List Request} (h : Filling s (d :: codes))
    (hrequests : s.requests = encode s.cfg.aw (.sampleLast d) :: rest) :
    step s = .next ((sampleTurn s rest d).closeBlock.respond .performed) := by
  have hdecode : decode s.context (encode s.cfg.aw (.sampleLast d)) = .ok (.sampleLast d) :=
    decodeCommand_sampleLast (h.width d List.mem_cons_self)
  rw [step_of_requests_cons hrequests hdecode]
  exact exec_of_enabled h.canSample

/-- The turn of `END` in an open block (40_block_control.md R104). -/
theorem step_endBlock {s : State} {rest : List Request} (h : s.phase = .fill)
    (hrequests : s.requests = encode s.cfg.aw .endBlock :: rest) :
    step s = .next ({ s with requests := rest }.closeBlock.respond .performed) := by
  have hdecode : decode s.context (encode s.cfg.aw .endBlock) = .ok .endBlock :=
    decodeCommand_endBlock (Nat.two_pow_pos _)
  rw [step_of_requests_cons hrequests hdecode]
  exact exec_of_enabled ((canEnd_iff _).2 h)

/-! ### A whole block in its own steps -/

/-- The requests of a block, with nothing between them, take one step each and end in the closed block (40_block_control.md R111). -/
theorem run_closes {codes : List Nat} {rs : List Request} {s : State} (hclose : Closes s.cfg.aw codes rs)
    (h : Filling s codes) (hrequests : s.requests = rs) :
    ∃ u : State, Host.Core.run Sys2Proof.core rs.length s = .next (u.closeBlock.respond .performed) ∧ u.cfg = s.cfg ∧
      u.requests = [] ∧ u.fq = s.fq ∧ u.env = envAfter s codes := by
  generalize haw : s.cfg.aw = aw at hclose
  induction hclose generalizing s with
  | endBlock =>
    subst haw
    exact ⟨{ s with requests := [] }, run_succ_of_step (step_endBlock h.phase hrequests) 0, rfl, rfl, rfl, rfl⟩
  | sampleLast d =>
    subst haw
    obtain ⟨hcfg, hnone, hfq⟩ := sampleTurn_frame s [] d
    exact ⟨sampleTurn s [] d, run_succ_of_step (step_sampleLast h hrequests) 0, hcfg, hnone, hfq,
      envAfter_sampleTurn s [] d []⟩
  | @sample d codes rs _ ih =>
    subst haw
    obtain ⟨hcfg, hrest, hfq⟩ := sampleTurn_frame s rs d
    obtain ⟨u, hrun, hcfg', hnone, hfq', henv⟩ := ih (h.tail rs .performed) hrest (congrArg Config.aw hcfg)
    exact ⟨u, (run_succ_of_step (step_sample h hrequests) _).trans hrun, hcfg'.trans hcfg, hnone, hfq'.trans hfq,
      henv.trans ((envAfter_respond _ _ codes).trans (envAfter_sampleTurn s rs d codes))⟩

/-- The datapath's steps that a scan still takes: one for each index, one for each bit, and `DONE` (70_reset_and_hazards.md R216). -/
def scanSteps (s : State) : Nat := (s.env.length - s.idx) + (bitsToCome s).length + 1

/-- A step of the datapath that goes on with the scan keeps the frames of the block, and is one of its steps. -/
theorem scan_goes_on {s : State} {i : Instr} (hinv : BlockInv s) (hi : i = .slice ∨ i = .bit) (h : s.enabled i = true) :
    (performed i s).phase = .scan ∧ (performed i s).returned = [] ∧
      (performed i s).fq ++ framesToCome (performed i s) = s.fq ++ framesToCome s ∧
      scanSteps s = scanSteps (performed i s) + 1 := by
  obtain ⟨hlegal, _, ⟨_, _, htrue⟩, _⟩ := hinv
  obtain ⟨⟨_, _, hperiod⟩, _⟩ := (legal_iff s.cfg).1 hlegal
  rcases hi with rfl | rfl
  · obtain ⟨hscan, hidx, _⟩ := (canSlice_iff s).1 h
    have hbits : bitsToCome (performed .slice s) = bitsToCome s := bitsToCome_sliceIndex hperiod h
    have hframes : framesToCome (performed .slice s) = framesToCome s := framesToCome_sliceIndex hperiod h
    rw [scanSteps, scanSteps, hbits, hframes]
    rcases sliceIndex_cases s with ⟨_, _, hs⟩ | ⟨_, hs⟩ <;> rw [performed, hs] <;>
      exact ⟨hscan, rfl, rfl, by simp only [State.respond_env, State.respond_idx]; omega⟩
  · obtain ⟨hscan, hpend, _⟩ := (canBit_iff s).1 h
    have hpending := (bitPending_iff s).2 hpend
    have hbits : bitsToCome s = s.nextBit :: bitsToCome (performed .bit s) := bitsToCome_deliverBit hpending htrue
    have hframes : (performed .bit s).fq ++ framesToCome (performed .bit s) = s.fq ++ framesToCome s :=
      framesToCome_deliverBit hpending htrue
    have hregs : (performed .bit s).env = s.env ∧ (performed .bit s).idx = s.idx := by
      obtain ⟨a, c, e, p, y, n, q, hs⟩ := deliverBit_shape s
      rw [performed, hs]
      exact ⟨rfl, rfl⟩
    obtain ⟨henv, hidx⟩ := hregs
    refine ⟨(deliverBit_phase_cfg s).1.trans hscan, rfl, hframes, ?_⟩
    rw [scanSteps, scanSteps, henv, hidx, hbits, List.length_cons]
    omega

/-- With room in the queue for all its frames and no request waiting, a scan ends after exactly its own steps, with its frames in the
queue and every other element at its reset value (40_block_control.md R105, R111). -/
theorem run_scan {n : Nat} {s : State} (hn : scanSteps s = n) (hinv : BlockInv s) (hscan : s.phase = .scan)
    (hnone : s.requests = []) (hroom : ∀ m, s.cfg.fqDepth = some m → (s.fq ++ framesToCome s).length < m) :
    Host.Core.run Sys2Proof.core n s =
      .next { State.initial s.cfg with fq := s.fq ++ framesToCome s, resp := .performed } := by
  induction n generalizing s with
  | zero => cases hn
  | succ n ih =>
    have hdue : s.enabled s.due = true := enabled_due hinv hscan fun _ m hm => by
      have := hroom m hm
      rw [List.length_append] at this
      omega
    have hexec : exec s.due s = .next (performed s.due s) := exec_of_enabled hdue
    rw [run_succ_of_step ((step_of_no_requests hnone).trans hexec)]
    obtain ⟨hcfg, hrequests⟩ := performed_cfg_requests s.due s
    rcases due_cases_of_scan hscan with hgoes | hends
    · obtain ⟨hscan', _, hframes, hsteps⟩ := scan_goes_on hinv hgoes hdue
      rw [ih (by omega) (exec_keeps_blockInv hinv hexec) hscan' (hrequests.trans hnone) (by rwa [hframes, hcfg]),
        hframes, hcfg]
    · rw [hends] at hdue ⊢
      obtain ⟨_, hidx, _⟩ := (canDone_iff s).1 hdue
      have hlast : n = 0 := by
        rw [scanSteps, bitsToCome_of_canDone hdue, hidx, Nat.sub_self] at hn
        exact (Nat.succ.inj hn).symm
      rw [hlast, performed_done_eq_initial, framesToCome_of_canDone hdue, hnone, List.append_nil]
      rfl

/-- A block just closed is scanned in one step for each index, one for each bit and one for `DONE` (70_reset_and_hazards.md R216). -/
theorem run_closed {u : State} {r : Response} (hinv : BlockInv (u.closeBlock.respond r)) (hnone : u.requests = [])
    (hroom : ∀ m, u.cfg.fqDepth = some m → (u.fq ++ blockFrames (blockBits u.cfg u.env)).length < m) :
    Host.Core.run Sys2Proof.core (u.env.length + (blockBits u.cfg u.env).length + 1) (u.closeBlock.respond r) =
      .next { State.initial u.cfg with
        fq := u.fq ++ blockFrames (blockBits u.cfg u.env), resp := .performed } := by
  have hframes : framesToCome (u.closeBlock.respond r) = blockFrames (blockBits u.cfg u.env) := framesToCome_closeBlock u
  have hsteps : scanSteps (u.closeBlock.respond r) = u.env.length + (blockBits u.cfg u.env).length + 1 := by
    rw [← bitsToCome_closeBlock]; rfl
  rw [run_scan hsteps hinv rfl hnone (by rw [hframes]; exact hroom), hframes]
  rfl

/-- The samples of a whole block leave their envelope (41_envelope.md R122). -/
theorem envAfter_eq_envelopeTrace {s : State} (hw : 1 ≤ s.cfg.w) (h : AtReset s) (codes : List Nat) :
    envAfter s codes = envelopeTrace s.cfg (codes.map (sampleValue s.cfg)) := by
  have hstart : HoldsSamples s [] := by
    rw [HoldsSamples, envelopeTrace_short (a := []) hw, List.drop_nil]
    exact ⟨congrArg State.env h, congrArg State.win h⟩
  exact envAfter_of_holdsSamples hw hstart codes

/-- What a closed block delivers is `DecodeBlock` of its samples (40_block_control.md R111). -/
theorem decodeBlock_eq {s : State} (hw : 1 ≤ s.cfg.w) (h : AtReset s) (codes : List Nat) :
    decodeBlock s.cfg codes = blockFrames (blockBits s.cfg (envAfter s codes)) := by
  rw [envAfter_eq_envelopeTrace hw h, decodeBlock]

/-- Settles O49: the requests end in the closed block, and its scan then runs without being held. -/
theorem blockRunComputesDecodeBlock : Obligations.BlockRunComputesDecodeBlock := by
  intro s codes hinv hphase hcnt hwidth hnmax hdepth hrequests
  have hw : 1 ≤ s.cfg.w := legal_w_pos hinv.1
  have hreset := atReset_of_empty hinv hphase hcnt
  have hfill : Filling s codes := ⟨hphase, by simpa [hcnt] using hnmax, hwidth⟩
  obtain ⟨u, hrun, hcfg, hnone, hfq, henv⟩ := run_closes (closes_blockOps _ codes) hfill hrequests
  have hframes : blockFrames (blockBits u.cfg u.env) = decodeBlock s.cfg codes := by
    rw [decodeBlock_eq hw hreset, hcfg, henv]
  have hroom : ∀ m, u.cfg.fqDepth = some m → (u.fq ++ blockFrames (blockBits u.cfg u.env)).length < m := by
    rw [hframes, hcfg, hfq, List.length_append]
    exact hdepth
  have hscan := run_closed (run_keeps_blockInv hinv hrun) hnone hroom
  rw [hframes, hfq, hcfg, henv, envAfter_eq_envelopeTrace hw hreset, envelopeTrace_length, List.length_map] at hscan
  have hturns : (requestsOf s.cfg.aw (blockOps codes)).length = codes.length + 1 := by simp [requestsOf, blockOps]
  rw [hturns] at hrun
  rw [Nat.add_assoc, Nat.add_assoc, ← Nat.add_assoc (codes.length + 1 - s.cfg.w), run_add hrun, hscan]
  exact congrArg Host.Outcome.next (hreset.initial_eq [] _ _)

/-! ### A block among other turns -/

/-- The requests of a list that come from the producer. -/
def commands (rs : List Request) : List Request := rs.filter (fun r => decide (r.port = .command))

theorem commands_cons_of_command {r : Request} (h : r.port = .command) (rs : List Request) :
    commands (r :: rs) = r :: commands rs := by
  simp [commands, h]

theorem commands_cons_of_not_command {r : Request} (h : r.port ≠ .command) (rs : List Request) :
    commands (r :: rs) = commands rs := by
  simp [commands, h]

/-- How far a block has come, and the frames that it will still deliver: it is open and its remaining samples are among the turns to come,
or it is being scanned, or it is over. -/
inductive Stage : State → List Frame → Prop where
  | filling {s : State} {codes : List Nat} (hfill : Filling s codes)
      (hclose : Closes s.cfg.aw codes (commands s.requests)) :
      Stage s (blockFrames (blockBits s.cfg (envAfter s codes)))
  | scanning {s : State} (hscan : s.phase = .scan) (hnone : commands s.requests = []) : Stage s (framesToCome s)
  | atRest {s : State} (hreset : AtReset s) (hnone : commands s.requests = []) : Stage s []

/-- The turns of others, the queue and the last answer have no part in the stage of a block. -/
theorem Stage.relocate {s : State} {frames : List Frame} (h : Stage s frames) {rs : List Request} (q : List Frame)
    (r : Response) (hrs : commands rs = commands s.requests) :
    Stage { s with requests := rs, fq := q, resp := r } frames := by
  cases h with
  | @filling codes hfill hclose =>
    have henv := envAfter_congr (s := { s with requests := rs, fq := q, resp := r }) (t := s) rfl rfl rfl codes
    rw [← henv]
    exact .filling (s := { s with requests := rs, fq := q, resp := r }) ⟨hfill.phase, hfill.room, hfill.width⟩
      (hrs ▸ hclose)
  | scanning hscan hnone => exact .scanning (s := { s with requests := rs, fq := q, resp := r }) hscan (hrs.trans hnone)
  | atRest hreset hnone => exact .atRest (hreset.initial_eq rs q r).symm (hrs.trans hnone)

/-- A `POP` returns what it takes from the queue (40_block_control.md R106). -/
theorem returned_append_tail (s : State) : (performed .pop s).returned ++ s.fq.tail = s.fq := by
  cases hq : s.fq <;> simp [performed, State.returned, hq]

/-- From `s` to `t` no frame of the block is lost or made: what the step returns, what is in the queue and what is to come are together
the old queue and the frames that were to come. -/
abbrev KeepsFrames (s t : State) (frames : List Frame) : Prop :=
  ∃ frames', Stage t frames' ∧ t.returned ++ (t.fq ++ frames') = s.fq ++ frames

/-- The turn of the datapath keeps the frames of the block. -/
theorem Stage.exec_due {s t : State} {frames : List Frame} (h : Stage s frames) (hinv : BlockInv s)
    (ht : exec s.due s = .next t) :
    KeepsFrames s t frames := by
  rcases exec_cases ht with ⟨henabled, rfl⟩ | ⟨_, rfl⟩
  · cases hphase : s.phase with
    | fill =>
      rw [due_of_fill hphase]
      exact ⟨frames, h.relocate s.fq .performed rfl, rfl⟩
    | scan =>
      cases h with
      | filling hfill _ => exact absurd (hphase.symm.trans hfill.phase) (by decide)
      | atRest hreset _ => exact absurd (hphase.symm.trans hreset.phase) (by decide)
      | scanning _ hnone =>
        obtain ⟨_, hrequests⟩ := performed_cfg_requests s.due s
        rcases due_cases_of_scan hphase with hgoes | hends
        · obtain ⟨hscan', hanswer, hframes, _⟩ := scan_goes_on hinv hgoes henabled
          exact ⟨_, .scanning hscan' (by rw [hrequests, hnone]), by rw [hanswer, hframes]; rfl⟩
        · rw [hends] at henabled ⊢
          rw [framesToCome_of_canDone henabled]
          exact ⟨[], .atRest rfl hnone, rfl⟩
  · exact ⟨frames, h.relocate s.fq .held rfl, rfl⟩

/-- The turn of a command takes a sample or closes the block. -/
theorem Stage.step_command {s t : State} {frames : List Frame} {r : Request} {rest : List Request} (h : Stage s frames)
    (hrequests : s.requests = r :: rest) (hport : r.port = .command) (ht : step s = .next t) :
    KeepsFrames s t frames := by
  have hcommands : commands s.requests = r :: commands rest := by rw [hrequests, commands_cons_of_command hport]
  cases h with
  | scanning _ hnone => rw [hnone] at hcommands; cases hcommands
  | atRest _ hnone => rw [hnone] at hcommands; cases hcommands
  | filling hfill hclose =>
    rw [hcommands] at hclose
    generalize hrs : commands rest = rs at hclose
    cases hclose with
    | endBlock =>
      obtain rfl := Host.Outcome.next.inj ((step_endBlock hfill.phase hrequests).symm.trans ht)
      exact ⟨_, .scanning rfl hrs, congrArg (s.fq ++ ·) (framesToCome_closeBlock s)⟩
    | sampleLast d =>
      obtain rfl := Host.Outcome.next.inj ((step_sampleLast hfill hrequests).symm.trans ht)
      obtain ⟨hcfg, hrest, hfq⟩ := sampleTurn_frame s rest d
      have hframes := framesToCome_closeBlock (sampleTurn s rest d)
      have henv : (sampleTurn s rest d).env = envAfter s [d] := envAfter_sampleTurn s rest d []
      rw [hcfg, henv] at hframes
      refine ⟨_, .scanning rfl ((congrArg commands hrest).trans hrs), ?_⟩
      show (sampleTurn s rest d).fq ++ framesToCome (sampleTurn s rest d).closeBlock = _
      rw [hfq, hframes]
    | @sample d codes _ hclose =>
      obtain rfl := Host.Outcome.next.inj ((step_sample hfill hrequests).symm.trans ht)
      obtain ⟨hcfg, hrest, hfq⟩ := sampleTurn_frame s rest d
      have henv : envAfter ((sampleTurn s rest d).respond .performed) codes = envAfter s (d :: codes) :=
        (envAfter_respond _ _ codes).trans (envAfter_sampleTurn s rest d codes)
      have hstage := Stage.filling (hfill.tail rest .performed) (by
        rw [State.respond_requests, hrest, hrs, State.respond_cfg, hcfg]; exact hclose)
      rw [henv, State.respond_cfg, hcfg] at hstage
      exact ⟨_, hstage, congrArg (· ++ _) hfq⟩

/-- A request of the consumer or of the datapath: what it can ask for in the state `s`. -/
theorem decode_of_other_agents {s : State} {r : Request} {i : Instr}
    (hport : r.port = .frame ∨ r.port = .register ∨ r.port = .datapath) (hd : decode s.context r = .ok i) :
    i = .pop ∨ (∃ n, i = .rdreg n) ∨ i = s.due := by
  obtain ⟨port, word⟩ := r
  rcases hport with hp | hp | hp <;> cases hp
  · exact .inl (decodeLine_cases hd).2
  · exact .inr (.inl ⟨word, (Except.ok.inj hd).symm⟩)
  · exact .inr (.inr (Except.ok.inj hd).symm)

/-- The turn of the consumer or of the datapath. -/
theorem Stage.step_other {s t : State} {frames : List Frame} {r : Request} {rest : List Request} (h : Stage s frames)
    (hinv : BlockInv s) (hrequests : s.requests = r :: rest)
    (hport : r.port = .frame ∨ r.port = .register ∨ r.port = .datapath) (ht : step s = .next t) :
    KeepsFrames s t frames := by
  obtain ⟨i, hfetch, hexec⟩ := step_cases ht
  have hother : r.port ≠ .command := by rcases hport with hp | hp | hp <;> rw [hp] <;> decide
  have hturn : Stage s.turnTaken frames := by
    rw [turnTaken_of_requests_cons hrequests]
    exact h.relocate s.fq s.resp (by rw [hrequests, commands_cons_of_not_command hother])
  rcases decode_of_other_agents hport ((fetch_of_requests_cons hrequests).symm.trans hfetch) with rfl | ⟨n, rfl⟩ | rfl
  · obtain rfl := exec_next_unique hexec (exec_of_enabled rfl)
    refine ⟨frames, hturn.relocate s.fq.tail (.frame s.fq.head?) rfl, ?_⟩
    rw [← List.append_assoc]
    exact congrArg (· ++ frames) (returned_append_tail s.turnTaken)
  · obtain rfl := exec_next_unique hexec (exec_rdreg n _)
    exact ⟨frames, hturn.relocate s.fq _ rfl, rfl⟩
  · exact hturn.exec_due (turnTaken_blockInv hinv) hexec

/-- The request is one of the producer, the consumer or the datapath. -/
def FromBlockAgents (r : Request) : Prop :=
  r.port = .command ∨ r.port = .frame ∨ r.port = .register ∨ r.port = .datapath

/-- Once all turns are taken, what was popped, what is in the queue and what is still to come are together the old queue and the frames of
the block. -/
theorem Stage.run {rs : List Request} {s t : State} {frames : List Frame} (h : Stage s frames) (hinv : BlockInv s)
    (hrequests : s.requests = rs) (hports : ∀ r ∈ rs, FromBlockAgents r)
    (ht : Host.Core.run Sys2Proof.core rs.length s = .next t) :
    ∃ frames', Stage t frames' ∧ popLog rs.length s ++ (t.fq ++ frames') = s.fq ++ frames ∧
      t.cfg = s.cfg ∧ t.requests = [] := by
  induction rs generalizing s frames with
  | nil => cases ht; exact ⟨frames, h, rfl, rfl, hrequests⟩
  | cons r rest ih =>
    obtain ⟨u, hstep, hrun⟩ := step_of_run_succ ht
    obtain ⟨hcfg, hturn⟩ := step_cfg_requests hstep
    have hrest : u.requests = rest := by rw [hturn, hrequests, List.tail_cons]
    obtain ⟨frames₁, hstage, hdelivered⟩ : KeepsFrames s u frames := by
      rcases hports r List.mem_cons_self with hport | hport
      · exact h.step_command hrequests hport hstep
      · exact h.step_other hinv hrequests hport hstep
    obtain ⟨frames₂, hend, hpopped, hcfg', hnone⟩ := ih hstage (stepKeepsInvariant s u hinv hstep) hrest
      (fun q hq => hports q (List.mem_cons_of_mem r hq)) hrun
    refine ⟨frames₂, hend, ?_, hcfg'.trans hcfg, hnone⟩
    rw [List.length_cons, popLog_succ_of_step hstep, List.append_assoc, hpopped, hdelivered]

/-- With all turns taken and the phase `FILL`, the block is over. -/
theorem Stage.finished {t : State} {frames : List Frame} (h : Stage t frames) (hnone : t.requests = [])
    (hphase : t.phase = .fill) : frames = [] ∧ AtReset t := by
  cases h with
  | filling _ hclose => rw [hnone] at hclose; cases hclose
  | scanning hscan _ => cases hscan.symm.trans hphase
  | atRest hreset _ => exact ⟨rfl, hreset⟩

/-- Settles O50: every turn keeps the frames of the block, those popped, those in the queue and those to come, and at the end none is to
come. -/
theorem interleavedBlockDeliversItsFrames : Obligations.InterleavedBlockDeliversItsFrames := by
  intro s t codes hinv hphase hcnt hwidth hnmax hports hcommands hrun hend
  have hreset := atReset_of_empty hinv hphase hcnt
  have hclose : Closes s.cfg.aw codes (commands s.requests) := by
    rcases hcommands with hblock | ⟨first, d, rfl, hlast⟩
    · rw [commands, hblock]; exact closes_blockOps _ codes
    · rw [commands, hlast]; exact closes_sampleLast _ first d
  have hstart := Stage.filling ⟨hphase, by simpa [hcnt] using hnmax, hwidth⟩ hclose
  rw [← decodeBlock_eq (legal_w_pos hinv.1) hreset] at hstart
  obtain ⟨frames, hstage, hdelivered, hcfg, hnone⟩ := hstart.run hinv rfl hports hrun
  obtain ⟨rfl, hrest⟩ := hstage.finished hnone hend
  rw [List.append_nil] at hdelivered
  refine ⟨hdelivered, ?_⟩
  rw [← hreset.initial_eq, ← hcfg, ← hnone]
  exact hrest

end Sys2Proof.BlockControl
end

section
/-!
PROOFS. The envelope detector (41_envelope.md): the closed form of the trace and of the window, the rectifier and the level test at the
mean, the all-integer form of that test, and the block that is too short to have an envelope.
-/

namespace Sys2Proof.Envelope

open Sys2Proof.Machine Sys2Proof.Safety Sys2Proof.Scope Sys2Proof.BlockState Sys2Proof.Memory Sys2Proof.BlockControl

/-! ### The short block -/

/-- A closed block without an envelope has nothing to slice and no bit to deliver: only `DONE` is left (41_envelope.md R126). -/
theorem closeBlock_enabled_of_env_nil {s : State} (h : s.env = []) :
    s.closeBlock.canSlice = false ∧ s.closeBlock.canBit = false ∧ s.closeBlock.canDone = true := by
  have hpend : s.closeBlock.bitPending = false := (bitPending_false_iff _).2 ⟨rfl, rfl⟩
  have hend : s.closeBlock.idx = s.closeBlock.env.length := by rw [State.closeBlock_env, h]; rfl
  refine ⟨?slice, ?bit, (canDone_iff _).2 ⟨rfl, hend, rfl, rfl⟩⟩
  case slice => simp [State.canSlice, h]
  case bit => simp [State.canBit, hpend]

/-- Settles O31: the stores agree, so a block of fewer than `W` samples has no envelope value. -/
theorem shortBlockYieldsNothing : Obligations.ShortBlockYieldsNothing := by
  intro s ⟨_, ⟨_, _, hlen, _⟩, _⟩ hfill hshort
  have henv : s.env = [] := List.length_eq_zero_iff.1 (by omega)
  obtain ⟨hslice, hbit, hdone⟩ := closeBlock_enabled_of_env_nil henv
  exact ⟨_, _, exec_of_enabled ((canEnd_iff s).2 hfill), henv, hslice, hbit, exec_of_enabled hdone, rfl, rfl, rfl, rfl⟩

/-! ### The moving average -/

theorem sampleValue_eq (c : Config) (d : Nat) : sampleValue c d = (d : Rat) / 2 ^ c.af := by
  rw [sampleValue, Nat.cast_pow, Nat.cast_ofNat]

/-- The samples of a block with room for them are all performed; the envelope and the window are those of the samples held before and the
new ones (40_block_control.md R102). -/
theorem execAll_samples {s : State} {a : List Rat} (hw : 1 ≤ s.cfg.w) (hfill : s.phase = .fill) (h : HoldsSamples s a)
    (codes : List Nat) (hroom : ∀ n, s.cfg.nmax = some n → s.cnt + codes.length ≤ n) :
    ∃ t, execAll (codes.map .sample) s = .next t ∧ t.phase = .fill ∧ t.cnt = s.cnt + codes.length ∧ t.fq = s.fq ∧
      t.cfg = s.cfg ∧ HoldsSamples t (a ++ codes.map (sampleValue s.cfg)) := by
  induction codes generalizing s a with
  | nil => exact ⟨s, rfl, hfill, rfl, rfl, rfl, by rwa [List.map_nil, List.append_nil]⟩
  | cons d rest ih =>
    have hcount : s.cnt + (d :: rest).length = s.cnt + 1 + rest.length := by rw [List.length_cons]; omega
    rw [hcount] at hroom ⊢
    have henabled : s.enabled (.sample d) = true :=
      (canSample_iff s).2 ⟨hfill, fun n hn => by have := hroom n hn; omega⟩
    obtain ⟨w, e, hshape⟩ : ∃ w e, s.takeSample d = { s with win := w, env := e, cnt := s.cnt + 1 } :=
      ⟨_, _, takeSample_frame s d⟩
    have hnew := takeSample_holdsSamples hw h d
    rw [hshape] at hnew
    obtain ⟨t, hrun, hphase, hcnt, hfq, hcfg, ht⟩ :=
      ih (s := { s with win := w, env := e, cnt := s.cnt + 1, resp := .performed }) hw hfill hnew hroom
    refine ⟨t, ?run, hphase, hcnt, hfq, hcfg, ?holds⟩
    case run =>
      rw [List.map_cons, execAll_cons_of_exec (exec_of_enabled henabled), performed, hshape]
      exact hrun
    case holds => rw [List.map_cons, List.append_cons]; exact ht

/-- A stretch that lies inside a list, element by element. -/
theorem take_drop_eq_map_range {α : Type} {l : List α} {k w : Nat} (h : k + w ≤ l.length) (x : α) :
    (l.drop k).take w = (List.range w).map (fun j => l.getD (k + j) x) := by
  refine List.ext_getElem ?_ fun j hj _ => ?_
  · rw [List.length_take, List.length_drop, List.length_map, List.length_range]; omega
  · have hjw : j < w := (List.length_take_le _ _).trans_lt' hj
    rw [List.getElem_take, List.getElem_drop, List.getElem_map, List.getElem_range,
      List.getD_eq_getElem _ _ (by omega)]

/-- One value of the envelope: `G` times the sum of its `W` samples, divided by `W` (41_envelope.md R122). -/
theorem envelopeTrace_getD {c : Config} {a : List Rat} {k : Nat} (hk : k < a.length + 1 - c.w) :
    (envelopeTrace c a).getD k 0 = (c.g : Rat) * ((List.range c.w).map (fun j => a.getD (k + j) 0)).sum / c.w := by
  rw [List.getD_eq_getElem _ _ (by rwa [envelopeTrace_length])]
  simp only [envelopeTrace, List.getElem_map, List.getElem_range]
  rw [take_drop_eq_map_range (by omega)]

/-- Settles O36: the block holds its samples, whose envelope and window have the closed form. -/
theorem envelopeHasClosedForm : Obligations.EnvelopeHasClosedForm := by
  intro s codes hlegal hfill hcnt hwin henv hroom
  have hw := legal_w_pos hlegal
  have hstart : HoldsSamples s [] := ⟨by rw [henv, envelopeTrace_short (a := []) hw], by rw [hwin, List.drop_nil]⟩
  obtain ⟨t, hrun, hphase, hcount, hfq, hcfg, hholds⟩ :=
    execAll_samples hw hfill hstart codes (by rwa [hcnt, Nat.zero_add])
  have hvalues : codes.map (sampleValue s.cfg) = codes.map (fun d : Nat => (d : Rat) / 2 ^ s.cfg.af) :=
    List.map_congr_left fun d _ => sampleValue_eq s.cfg d
  rw [hcnt, Nat.zero_add] at hcount
  obtain ⟨htrace, hwindow⟩ := hholds
  rw [hcfg, List.nil_append, hvalues] at htrace hwindow
  refine ⟨t, hrun, hphase, hcount, hfq, ?length, fun k hk => ?value, ?window⟩
  case length => rw [htrace, envelopeTrace_length, List.length_map]
  case value =>
    have hzero : ((0 : Nat) : Rat) / 2 ^ s.cfg.af = 0 := by rw [Nat.cast_zero, zero_div]
    rw [htrace, envelopeTrace_getD (by rwa [List.length_map]), ← hzero]
    simp only [List.getD_map]
  case window =>
    -- the statement reads the codes as rationals before it scales them
    rw [hwindow, List.length_map, ← List.map_drop, ← tsub_min, bind_pure_comp, List.map_eq_map, List.map_map]
    rfl

/-! ### The rectifier -/

/-- A value is rectified to 0 exactly when it does not exceed the mean (41_envelope.md R125). -/
theorem rect_eq_zero_iff (env : List Rat) (k : Nat) : rect env k = 0 ↔ env.getD k 0 ≤ mean env := by
  rw [rect, max_eq_left_iff, sub_nonpos]

/-- Above the mean the rectifier gives the distance from it. -/
theorem rect_of_mean_lt {env : List Rat} {k : Nat} (h : mean env < env.getD k 0) : rect env k = env.getD k 0 - mean env :=
  max_eq_right (sub_nonneg.2 h.le)

/-- Not every value of a trace exceeds the mean. -/
theorem exists_getD_le_mean {env : List Rat} (h : env ≠ []) : ∃ k < env.length, env.getD k 0 ≤ mean env := by
  have hpos : (env.length : Rat) ≠ 0 := Nat.cast_ne_zero.2 (List.length_eq_zero_iff.not.2 h)
  have hsum : (env.map id).sum ≤ (env.map fun _ => mean env).sum := by
    rw [List.map_id, List.map_const', List.sum_replicate, nsmul_eq_mul, mean, mul_div_cancel₀ _ hpos]
  obtain ⟨x, hx, hle⟩ := List.exists_le_of_sum_le h id _ hsum
  obtain ⟨k, hk, rfl⟩ := List.getElem_of_mem hx
  exact ⟨k, hk, by rwa [List.getD_eq_getElem _ _ hk]⟩

/-- The mean of a constant trace is its value. -/
theorem mean_replicate {n : Nat} (h : n ≠ 0) (e : Rat) : mean (List.replicate n e) = e := by
  rw [mean, List.sum_replicate, List.length_replicate, nsmul_eq_mul, mul_div_cancel_left₀ _ (Nat.cast_ne_zero.2 h)]

theorem thr_nonneg (c : Config) : 0 ≤ c.thr := div_nonneg (Nat.cast_nonneg _) (Nat.cast_nonneg _)

/-- The clamp does not matter to the level test, since no threshold is negative (41_envelope.md R129, 42_slicer_gap.md R149). -/
theorem thr_lt_rect_iff (c : Config) (env : List Rat) (k : Nat) : c.thr < rect env k ↔ c.thr < env.getD k 0 - mean env :=
  lt_max_iff.trans (or_iff_right (thr_nonneg c).not_gt)

/-- A value rectified to 0 is no edge candidate. -/
theorem isCandidate_of_rect_eq_zero {c : Config} {env : List Rat} {k : Nat} (h : rect env k = 0) : isCandidate c env k = false :=
  decide_eq_false (h ▸ (thr_nonneg c).not_gt)

/-- Settles O39: a value rectified to 0 is no candidate, and in a constant trace the mean is every value. -/
theorem rectifierClampsAtTheMean : Obligations.RectifierClampsAtTheMean := by
  refine ⟨fun env k _ => ⟨(rect_eq_zero_iff env k).2, rect_of_mean_lt⟩, fun env hne => ?some, fun c n k e _ hk => ?constant⟩
  case some =>
    obtain ⟨k, hk, hle⟩ := exists_getD_le_mean hne
    exact ⟨k, hk, (rect_eq_zero_iff env k).2 hle⟩
  case constant =>
    refine isCandidate_of_rect_eq_zero ((rect_eq_zero_iff _ k).2 ?_)
    rw [mean_replicate (Nat.ne_zero_of_lt hk), List.getD_replicate _ hk]

/-! ### The all-integer test -/

/-- The trace of integer window sums is these sums scaled by `G / (W * 2^AF)`; the model reads them as rationals first, then scales. -/
theorem envelopeOfSums_eq (c : Config) (sums : List Nat) :
    envelopeOfSums c sums = sums.map (fun S : Nat => (c.g : Rat) / (c.w * 2 ^ c.af) * (S : Rat)) := by
  rw [envelopeOfSums, bind_pure_comp, List.map_eq_map, List.map_map]
  refine List.map_congr_left fun S _ => ?_
  rw [Function.comp_apply, Nat.cast_pow, Nat.cast_ofNat, mul_div_right_comm]

theorem envelopeOfSums_length (c : Config) (sums : List Nat) : (envelopeOfSums c sums).length = sums.length := by
  rw [envelopeOfSums_eq, List.length_map]

/-- The distance of an envelope value from the mean, over the common denominator `W * 2^AF * L` (41_envelope.md R129). -/
theorem envelopeOfSums_sub_mean (c : Config) {sums : List Nat} {k : Nat} (hk : k < sums.length) :
    (envelopeOfSums c sums).getD k 0 - mean (envelopeOfSums c sums) =
      (c.g : Rat) * (sums.length * (sums.getD k 0 : Nat) - (sums.sum : Nat)) / (c.w * 2 ^ c.af * sums.length) := by
  have hlength : (sums.length : Rat) ≠ 0 := Nat.cast_ne_zero.2 (Nat.ne_zero_of_lt hk)
  have hvalue : (envelopeOfSums c sums).getD k 0 = (c.g : Rat) / (c.w * 2 ^ c.af) * (sums.getD k 0 : Nat) := by
    simp only [envelopeOfSums_eq, List.getD_eq_getElem?_getD, List.getElem?_map, List.getElem?_eq_getElem hk,
      Option.map_some, Option.getD_some]
  have hmean : mean (envelopeOfSums c sums) = (c.g : Rat) / (c.w * 2 ^ c.af) * (sums.sum : Nat) / sums.length := by
    rw [mean, envelopeOfSums_length, envelopeOfSums_eq, List.sum_map_mul_left, Nat.cast_list_sum]
  rw [hvalue, hmean]
  field_simp

/-- The rational test of the slicer is the integer inequality: both sides times the positive `THR_DEN * W * 2^AF * L`
(41_envelope.md R129). -/
theorem thr_lt_rect_envelopeOfSums_iff {c : Config} (hlegal : c.legal = true) {sums : List Nat} {k : Nat} (hk : k < sums.length) :
    c.thr < rect (envelopeOfSums c sums) k ↔
      (c.thrNum : Int) * c.w * 2 ^ c.af * sums.length <
        (c.g : Int) * c.thrDen * (sums.length * (sums.getD k 0 : Nat) - (sums.sum : Nat)) := by
  obtain ⟨⟨hw, hden, _⟩, _⟩ := (legal_iff c).1 hlegal
  have hden' : (0 : Rat) < c.thrDen := Nat.cast_pos.2 hden
  have hscale : (0 : Rat) < c.w * 2 ^ c.af * sums.length :=
    mul_pos (mul_pos (Nat.cast_pos.2 hw) (by positivity)) (Nat.cast_pos.2 (Nat.zero_lt_of_lt hk))
  rw [thr_lt_rect_iff, envelopeOfSums_sub_mean c hk, Config.thr, div_lt_div_iff₀ hden' hscale, ← Int.cast_lt (R := Rat)]
  push_cast [-Nat.cast_list_sum]
  rw [← mul_assoc, ← mul_assoc, mul_right_comm (c.g : Rat)]

/-- Settles O38, in the written-out form and in the model's two tests. -/
theorem integerTestIsRationalTest : Obligations.IntegerTestIsRationalTest := by
  intro c sums k hlegal hk
  have hiff := thr_lt_rect_envelopeOfSums_iff hlegal hk
  constructor
  · rwa [rect, mean, envelopeOfSums_length] at hiff
  · refine decide_eq_decide.2 (hiff.trans ?_)
    rw [Nat.cast_pow, Nat.cast_ofNat]

end Sys2Proof.Envelope
end

section
/-!
PROOFS. The slicer and the gap decoder (42_slicer_gap.md): one index examined by `SLICE`, one pending bit delivered by `BIT` and where it
is held, the gap's bits in closed form, and the repeated marking of a long pulse.
-/

namespace Sys2Proof.Slicer

open Sys2Proof.Machine Sys2Proof.Scope Sys2Proof.Memory Sys2Proof.Encoding

/-! ### The bits of a gap -/

/-- Settles O40: the closed form holds for a gap of 0 as well, so only the period's bound is needed. -/
theorem gapLoopHasClosedForm : Obligations.GapLoopHasClosedForm := fun _ gap hperiod _ => gapBits_eq hperiod gap

/-- Each marking gives exactly one `true` bit (42_slicer_gap.md R146). -/
theorem gapBits_count_true {period : Nat} (hp : 1 ≤ period) (gap : Nat) : (gapBits period gap).count true = 1 := by
  rw [gapBits_eq hp, List.count_append, List.count_replicate]
  rfl

/-! ### The repeated marking of a long pulse -/

/-- The markings among `n` indices above the threshold, for a run that starts anywhere after the last marked edge (42_slicer_gap.md R148): up
to `MINGAP` indices between that edge and the run have already been waited for, and count as if they belonged to the run. -/
theorem scanBits_count_true_of_run {c : Config} {e : List Rat} {m : Rat} (hperiod : 1 ≤ c.period) {k n last : Nat}
    (hrun : ∀ j, k ≤ j → j < k + n → max 0 (e.getD j 0 - m) > c.thr) (hlast : last < k) :
    (scanBits c e m (List.range' k n) last).count true = (n + min (k - last - 1) c.mingap) / (c.mingap + 1) := by
  induction n generalizing k last with
  | zero =>
    have hnone : 0 + min (k - last - 1) c.mingap < c.mingap + 1 := by omega
    rw [Nat.div_eq_of_lt hnone]
    rfl
  | succ n ih =>
    have habove : max 0 (e.getD k 0 - m) > c.thr := hrun k le_rfl (by omega)
    have hrest : ∀ j, k + 1 ≤ j → j < k + 1 + n → max 0 (e.getD j 0 - m) > c.thr :=
      fun j hj hj' => hrun j (by omega) (by omega)
    rw [List.range'_succ, scanBits]
    by_cases hgap : k - last > c.mingap
    · have hwait : n + 1 + min (k - last - 1) c.mingap = n + min (k + 1 - k - 1) c.mingap + (c.mingap + 1) := by omega
      rw [if_pos ⟨habove, hgap⟩, List.count_append, gapBits_count_true hperiod, ih hrest (Nat.lt_succ_self k), hwait,
        Nat.add_div_right _ (Nat.succ_pos _), Nat.add_comm]
    · have hwait : n + 1 + min (k - last - 1) c.mingap = n + min (k + 1 - last - 1) c.mingap := by omega
      rw [if_neg fun h => hgap h.2, ih hrest (Nat.lt_succ_of_lt hlast), hwait]

/-- Settles O43: a run first reached farther than `MINGAP` from the last edge has no index to wait for. -/
theorem longPulseIsMarkedRepeatedly : Obligations.LongPulseIsMarkedRepeatedly := by
  intro c e m k n last hlegal hrun hgap
  obtain ⟨⟨_, _, hperiod⟩, _⟩ := (legal_iff c).1 hlegal
  have hfar : min (k - last - 1) c.mingap = c.mingap := by omega
  rw [scanBits_count_true_of_run hperiod hrun (by omega), hfar]

/-! ### The step `SLICE` -/

/-- An index is a candidate exactly when its centred and clamped value exceeds the threshold (42_slicer_gap.md R142). -/
theorem isCandidate_iff (c : Config) (env : List Rat) (k : Nat) :
    isCandidate c env k = true ↔ max 0 (env.getD k 0 - env.sum / env.length) > (c.thrNum : Rat) / c.thrDen :=
  decide_eq_true_iff

/-- Settles O10: the two cases of `sliceIndex` where `SLICE` is performed, and its require line where it is held. -/
theorem sliceExaminesOneIndex : Obligations.SliceExaminesOneIndex := by
  refine fun s => ⟨fun hscan hidx hpendf hpendt => ?performed, fun hout => ?held⟩
  case performed =>
    have henabled : s.enabled .slice = true := (canSlice_iff s).2 ⟨hscan, hidx, hpendf, hpendt⟩
    rw [exec_of_enabled henabled, performed]
    rcases sliceIndex_cases s with ⟨hcandidate, hgap, hs⟩ | ⟨hunmarked, hs⟩
    · rw [hs, if_pos ⟨(isCandidate_iff _ _ _).1 hcandidate, hgap⟩]
      rfl
    · rw [hs, if_neg fun ⟨habove, hgap⟩ => hunmarked ⟨(isCandidate_iff _ _ _).2 habove, hgap⟩]
      rfl
  case held =>
    refine exec_of_not_enabled (Bool.eq_false_iff.2 fun henabled => ?_)
    obtain ⟨hscan, hidx, hpendf, hpendt⟩ := (canSlice_iff s).1 henabled
    rcases hout with hfill | hend | hfalse | htrue
    · exact (phase_ne_fill_iff s).2 hscan hfill
    · exact hend.not_gt hidx
    · exact hfalse.ne' hpendf
    · exact Bool.eq_false_iff.1 hpendt htrue

/-! ### The step `BIT` -/

/-- Settles O13, by the require line of `BIT`. -/
theorem bitHeldWithoutRoom : Obligations.BitHeldWithoutRoom := by
  intro s hout
  refine exec_of_not_enabled (Bool.eq_false_iff.2 fun henabled => ?_)
  obtain ⟨hscan, hpend, hroom⟩ := (canBit_iff s).1 henabled
  rcases hout with hfill | hnone | ⟨n, hdepth, hfull⟩
  · exact (phase_ne_fill_iff s).2 hscan hfill
  · exact Bool.eq_false_iff.1 ((bitPending_false_iff s).2 hnone) ((bitPending_iff s).2 hpend)
  · exact hfull.not_gt (hroom n hdepth)

/-- With a bit pending and room in the queue `BIT` is performed (42_slicer_gap.md R147). -/
theorem exec_bit_of_room {s : State} (hscan : s.phase = .scan) (hpend : 0 < s.pendf ∨ s.pendt = true)
    (hroom : ∀ n, s.cfg.fqDepth = some n → s.fq.length < n) :
    exec .bit s = .next (s.deliverBit.respond .performed) :=
  exec_of_enabled ((canBit_iff s).2 ⟨hscan, hpend, hroom⟩)

/-- A `false` bit leaves the partial byte as it is (43_deserializer_frame.md R161). -/
theorem nextPartial_false {s : State} (hbits : s.pbits ≤ 7) (hbyte : s.pbyte.toNat < 2 ^ s.pbits) :
    nextPartial s false = s.pbyte :=
  BitVec.eq_of_toNat_eq (nextPartial_toNat false hbits hbyte)

/-- A `true` bit adds the value of its place to the partial byte (43_deserializer_frame.md R161). -/
theorem nextPartial_true {s : State} (hbits : s.pbits ≤ 7) (hbyte : s.pbyte.toNat < 2 ^ s.pbits) :
    nextPartial s true = BitVec.ofNat 8 (s.pbyte.toNat + 2 ^ s.pbits) := by
  have hvalue : (nextPartial s true).toNat = s.pbyte.toNat + 2 ^ s.pbits := by
    rw [nextPartial_toNat true hbits hbyte, Bool.toNat_true, Nat.mul_one]
  rw [← hvalue, BitVec.ofNat_toNat, BitVec.setWidth_eq]

/-- Before the eighth bit the accumulator only collects (43_deserializer_frame.md R161). -/
theorem accBit_of_partial {s : State} (h : s.pbits < 7) (b : Bool) :
    s.accBit b = { s with pbyte := nextPartial s b, pbits := s.pbits + 1 } := by
  rcases accBit_cases s b with ⟨_, hs⟩ | ⟨h7, _⟩
  · exact hs
  · exact absurd h7 h.ne

/-- Settles O11: which bit is next, and what it does to the partial byte. -/
theorem bitEntersPartialByte : Obligations.BitEntersPartialByte := by
  refine fun s hscan hroom hbits hbyte => ⟨fun hpos => ?falseBit, fun hzero htrue => ?trueBit⟩
  case falseBit =>
    have hcollect : s.deliverBit = { s with pendf := s.pendf - 1, pbyte := nextPartial s false, pbits := s.pbits + 1 } := by
      rw [deliverBit_eq, if_pos hpos]
      exact accBit_of_partial (s := { s with pendf := s.pendf - 1 }) hbits false
    rw [exec_bit_of_room hscan (.inl hpos) hroom, hcollect, nextPartial_false hbits.le hbyte]
    rfl
  case trueBit =>
    have hcollect : s.deliverBit = { s with pendt := false, pbyte := nextPartial s true, pbits := s.pbits + 1 } := by
      rw [deliverBit_eq, if_neg hzero.not_gt]
      exact accBit_of_partial (s := { s with pendt := false }) hbits true
    rw [exec_bit_of_room hscan (.inr htrue) hroom, hcollect, nextPartial_true hbits.le hbyte]
    rfl

/-- Settles O12: the completed byte goes to `AccByte`, in its role as a header or as payload. -/
theorem bitCompletesByte : Obligations.BitCompletesByte := by
  intro s hscan hroom hbits hbyte hpend
  have hvalue : (nextPartial s s.nextBit).toNat = s.pbyte.toNat + (if 0 < s.pendf then 0 else 128) := by
    rw [nextPartial_toNat _ hbits.le (hbits ▸ hbyte), hbits, nextBit_on_last_place]
  refine ⟨nextPartial s s.nextBit, (eighthBitTaken s).respond .performed, hvalue, rfl, ?_⟩
  rw [exec_bit_of_room hscan hpend hroom, deliverBit_of_eighth_bit hbits]
  refine ⟨fun hexplen => ?header, fun hexplen hmore => ?inside, fun hexplen hfull => ?emits⟩
  case header =>
    rw [accByte_of_awaiting (s := eighthBitTaken s) hexplen]
    rfl
  case inside =>
    have hmore' : (eighthBitTaken s).pay.length + 1 ≠ (eighthBitTaken s).explen := hmore
    rw [accByte_of_payload (s := eighthBitTaken s) hexplen, if_neg hmore', if_neg hmore', if_neg hmore']
    rfl
  case emits =>
    have hfull' : (eighthBitTaken s).pay.length + 1 = (eighthBitTaken s).explen := hfull
    rw [accByte_of_payload (s := eighthBitTaken s) hexplen, if_pos hfull', if_pos hfull', if_pos hfull']
    rfl

end Sys2Proof.Slicer
end

section
/-!
PROOFS. The deserializer and its frames (43_deserializer_frame.md): the bit on which a frame enters the queue, and the headers of length
0 that are skipped.
-/

namespace Sys2Proof.Deserializer

open Sys2Proof.Machine Sys2Proof.Safety Sys2Proof.Encoding Sys2Proof.BlockControl Sys2Proof.Slicer

/-! ### Headers of length 0 -/

/-- A header of length 0, marked or not, leaves the awaited header awaited (43_deserializer_frame.md R165). -/
theorem accByte_of_zero_length {s : State} (h : s.explen = 0) {v : Byte} (hv : v.toNat ≤ 1) : s.accByte v = s := by
  rw [accByte_of_awaiting h, Nat.div_eq_of_lt (by omega), ← h]

theorem accByte_foldl_of_zero_lengths {s : State} {bytes : List Byte} (h : s.explen = 0) (hzero : ∀ b ∈ bytes, b.toNat ≤ 1) :
    bytes.foldl State.accByte s = s := by
  induction bytes with
  | nil => rfl
  | cons v rest ih =>
    obtain ⟨hv, hrest⟩ := List.forall_mem_cons.1 hzero
    rw [List.foldl_cons, accByte_of_zero_length h hv, ih hrest]

/-- Settles O48: the skipped headers leave the state as it was, so the byte after them still comes in header position. -/
theorem zeroLengthHeadersAreSkipped : Obligations.ZeroLengthHeadersAreSkipped := by
  intro s bytes v ⟨hexplen, _, hpbyte, hpbits⟩ hzero
  have hskipped : s.accBits (bytes.flatMap byteBits) = s := by
    rw [accBits_bytes bytes s hpbits hpbyte, accByte_foldl_of_zero_lengths hexplen hzero]
  refine ⟨hskipped, ?_⟩
  rw [accBits_append, hskipped, accBits_byteBits s v hpbits hpbyte, accByte_of_awaiting hexplen]

/-! ### The bit that completes a frame -/

/-- Bits that complete no byte keep the queue (43_deserializer_frame.md R161). -/
theorem accBits_fq_of_partial {s : State} {bs : List Bool} (h : s.pbits + bs.length ≤ 7) : (s.accBits bs).fq = s.fq := by
  induction bs generalizing s with
  | nil => rfl
  | cons b rest ih =>
    rw [List.length_cons] at h
    rw [accBits_cons, accBit_of_partial (by omega), ih (by simp only; omega)]

/-- Payload bytes short of the announced length are collected, and nothing is emitted (43_deserializer_frame.md R162). -/
theorem accByte_foldl_of_more {s : State} {bytes : List Byte} (h : s.pay.length + bytes.length < s.explen) :
    bytes.foldl State.accByte s = { s with pay := s.pay ++ bytes } := by
  induction bytes generalizing s with
  | nil => rw [List.foldl_nil, List.append_nil]
  | cons v rest ih =>
    rw [List.length_cons] at h
    have hmore : s.pay.length + 1 ≠ s.explen := by omega
    rw [List.foldl_cons, accByte_of_payload (by omega)]
    simp only [if_neg hmore]
    rw [ih (by simp only [List.length_append, List.length_singleton]; omega), List.append_assoc, List.singleton_append]

/-- The queue only grows while bits come in: one that is the same after all of them was the same after fewer. -/
theorem accBits_take_fq {s : State} {bs : List Bool} (h : (s.accBits bs).fq = s.fq) (k : Nat) :
    (s.accBits (bs.take k)).fq = s.fq := by
  rw [← List.take_append_drop k bs, accBits_append, accBits_fq, accBits_fq, List.append_assoc, List.append_right_eq_self,
    List.append_eq_nil_iff] at h
  obtain ⟨hnone, _⟩ := h
  rw [accBits_fq, hnone, List.append_nil]

theorem flatMap_byteBits_length (bytes : List Byte) : (bytes.flatMap byteBits).length = 8 * bytes.length := by
  induction bytes with
  | nil => rfl
  | cons v rest ih => rw [List.flatMap_cons, List.length_append, byteBits_length, ih, List.length_cons]; omega

/-- A frame takes 8 bits for its header and 8 for each payload byte (43_deserializer_frame.md R164). -/
theorem frameBits_length (f : Frame) : (frameBits f).length = 8 * (f.length + 1) := by
  rw [frameBits_eq_flatMap, flatMap_byteBits_length, List.length_cons]

theorem byteBits_ne_nil (v : Byte) : byteBits v ≠ [] := List.cons_ne_nil _ _

/-- Up to the last bit of a frame the header and all payload bytes but one are complete, and seven bits of that one are in place. -/
theorem frameBits_dropLast (init : List Byte) (v : Byte) :
    (frameBits (init ++ [v])).dropLast =
      (headerByte (BitVec.ofNat 7 (init ++ [v]).length) true :: init).flatMap byteBits ++ (byteBits v).dropLast := by
  rw [frameBits_eq_flatMap, ← List.cons_append, List.flatMap_append, List.flatMap_singleton,
    List.dropLast_append_of_ne_nil (byteBits_ne_nil v)]

/-- Without its last bit a frame is not emitted (43_deserializer_frame.md R164). -/
theorem accBits_frameBits_dropLast_fq {s : State} {f : Frame} (hfresh : FreshAccumulator s) (h1 : 1 ≤ f.length)
    (h127 : f.length ≤ 127) : (s.accBits (frameBits f).dropLast).fq = s.fq := by
  obtain ⟨hexplen, hpay, hpbyte, hpbits⟩ := hfresh
  obtain ⟨init, v, rfl⟩ := (List.eq_nil_or_concat' f).resolve_left (List.length_pos_iff.1 h1)
  have hmissing : s.pay.length + init.length < (init ++ [v]).length := by simp [hpay]
  rw [frameBits_dropLast, accBits_append, accBits_bytes _ _ hpbits hpbyte, List.foldl_cons, accByte_of_awaiting hexplen,
    frameHeader_announces h127, accByte_foldl_of_more hmissing]
  exact accBits_fq_of_partial (by simp [hpbits, byteBits_length])

/-- Settles O47: the bits before the last one keep the queue, and the whole frame is one emission. -/
theorem frameAppearsWithItsLastBit : Obligations.FrameAppearsWithItsLastBit := by
  intro s f hfresh h1 h127
  refine ⟨frameBits_length f, fun k hk => ?before, ?complete⟩
  case before =>
    have htake : (frameBits f).take k = (frameBits f).dropLast.take k := by
      rw [List.dropLast_eq_take, frameBits_length, List.take_take, Nat.min_eq_left (by omega)]
    rw [htake, accBits_take_fq (accBits_frameBits_dropLast_fq hfresh h1 h127)]
  case complete => rw [accBits_frameBits hfresh h1 h127]

end Sys2Proof.Deserializer
end

section
/-!
PROOFS. What meets at the output queue (60_exceptions.md R181, R185, R192): the hold of a full queue, a `POP` beside a command or a step of
the datapath, in either order and at one edge, and lanes that share the queue. The commands and the datapath's steps read nothing of the
queue and only append to it, so what they do is known for every queue from what they do for one.
-/

namespace Sys2Proof.Exceptions

open Sys2Proof.Machine Sys2Proof.Safety Sys2Proof.Scope Sys2Proof.BlockState Sys2Proof.Memory Sys2Proof.Encoding
  Sys2Proof.BlockControl

/-! ### The hold of a full queue -/

/-- A full queue refuses `BIT` (60_exceptions.md R181). -/
theorem canBit_of_full {s : State} (hfull : s.cfg.fqDepth = some s.fq.length) : s.canBit = false := by
  refine Bool.eq_false_iff.2 fun henabled => ?_
  obtain ⟨_, _, hroom⟩ := (canBit_iff s).1 henabled
  exact (hroom _ hfull).false

/-- A `POP` from a full queue lifts the hold of `BIT` (70_reset_and_hazards.md R212). -/
theorem canBit_after_pop_of_full {s : State} (hscan : s.phase = .scan) (hpend : 0 < s.pendf ∨ s.pendt = true)
    (hne : s.fq ≠ []) (hfull : s.cfg.fqDepth = some s.fq.length) : (performed .pop s).canBit = true := by
  refine (canBit_iff _).2 ⟨hscan, hpend, fun n hn => ?_⟩
  have hdepth : s.fq.length = n := Option.some.inj (hfull.symm.trans hn)
  have hpos : 0 < s.fq.length := List.length_pos_iff.2 hne
  show s.fq.tail.length < n
  rw [List.length_tail]
  omega

/-- Settles O29: the scan refuses the commands, the pending bit refuses `SLICE` and `DONE`, and the full queue refuses `BIT` under each of its
names; a `POP` takes one frame from that queue. -/
theorem fullQueueHoldsTheScan : Obligations.FullQueueHoldsTheScan := by
  intro s hscan hpend hne hfull
  have hfill : s.phase ≠ .fill := (phase_ne_fill_iff s).2 hscan
  have hpending : ¬(s.pendf = 0 ∧ s.pendt = false) := by
    rw [← bitPending_false_iff, (bitPending_iff s).2 hpend]
    exact Bool.noConfusion
  refine ⟨fun i t ht hpop hreset => ?held, fun t ht => ?lifted⟩
  case held =>
    cases effect_of_exec ht with
    | answer _ r => rfl
    | pop => exact absurd rfl hpop
    | sample d hc => exact absurd ((canSample_iff s).1 hc).1 hfill
    | sampleLast d hc => exact absurd ((canSample_iff s).1 hc).1 hfill
    | endBlock hc => exact absurd ((canEnd_iff s).1 hc) hfill
    | done hc =>
      obtain ⟨_, _, hnone⟩ := (canDone_iff s).1 hc
      exact absurd hnone hpending
    | reset => exact absurd rfl hreset
    | slice hc =>
      obtain ⟨_, _, hnone⟩ := (canSlice_iff s).1 hc
      exact absurd hnone hpending
    | bitStep _ _ hc =>
      rw [canBit_of_full hfull] at hc
      cases hc
  case lifted =>
    obtain rfl := exec_next_unique ht (exec_of_enabled rfl)
    exact ⟨rfl, canBit_after_pop_of_full hscan hpend hne hfull⟩

/-! ### The operations that only append to the queue -/

/-- The commands and the steps of the datapath. -/
def OnlyAppends (i : Instr) : Prop := IsCommand i ∨ i ∈ [Instr.slice, .bit, .done]

/-- The frames that a performed command or datapath step puts into the queue: those of the bit that `BIT` delivers (10_state.md R29). -/
def emitted : Instr → State → List Frame
  | .bit, s => framesOf s [s.nextBit]
  | _, _ => []

/-- What a bit does to the accumulator does not depend on the queue; its frames are appended. -/
theorem accBit_with_fq (s : State) (b : Bool) (q : List Frame) :
    { s with fq := q }.accBit b = { s.accBit b with fq := q ++ framesOf s [b] } := by
  have hfq : ({ s with fq := q }.accBit b).fq = q ++ framesOf s [b] := accBits_fq [b] { s with fq := q }
  have hlone : loneAccumulator ({ s with fq := q }.accBit b) = loneAccumulator (s.accBit b) :=
    (accBit_lone { s with fq := q } b).2.symm.trans (accBit_lone s b).2
  obtain ⟨e, p, y, n, _, hs⟩ := accBit_shape s b
  obtain ⟨e', p', y', n', q', hs'⟩ := accBit_shape { s with fq := q } b
  rw [hs'] at hfq
  obtain rfl : q' = q ++ framesOf s [b] := hfq
  rw [hs, hs'] at hlone
  simp only [loneAccumulator, withAccumulator, State.mk.injEq] at hlone
  simp [hs, hs', hlone]

/-- A delivered bit reads nothing of the queue and appends its frames. -/
theorem deliverBit_with_fq (s : State) (q : List Frame) :
    { s with fq := q }.deliverBit = { s.deliverBit with fq := q ++ framesOf s [s.nextBit] } := by
  rw [deliverBit_eq, deliverBit_eq, State.nextBit]
  by_cases h : 0 < s.pendf
  · rw [if_pos h, if_pos h, decide_eq_true h]
    exact accBit_with_fq { s with pendf := s.pendf - 1 } false q
  · rw [if_neg h, if_neg h, decide_eq_false h]
    exact accBit_with_fq { s with pendt := false } true q

/-- A sample reads and writes nothing of the queue. -/
theorem takeSample_with_fq (s : State) (d : Nat) (q : List Frame) :
    { s with fq := q }.takeSample d = { s.takeSample d with fq := q } := by
  by_cases hfull : s.win.length + 1 = s.cfg.w <;> simp [State.takeSample, State.envPush, hfull]

/-- An index of the scan reads and writes nothing of the queue. -/
theorem sliceIndex_with_fq (s : State) (q : List Frame) :
    { s with fq := q }.sliceIndex = { s.sliceIndex with fq := q } := by
  by_cases hlevel : isCandidate s.cfg s.env s.idx = true
  · by_cases hgap : s.cfg.mingap < s.idx - s.last <;>
      simp [State.sliceIndex, State.gapTimer, State.loadGap, hlevel, hgap]
  · simp [State.sliceIndex, hlevel]

/-- A command or datapath step does the same over every queue, and appends what it emits. -/
theorem performed_with_fq {i : Instr} (hi : OnlyAppends i) (s : State) (q : List Frame) :
    performed i { s with fq := q } = { performed i s with fq := q ++ emitted i s } := by
  simp only [OnlyAppends, List.mem_cons, List.not_mem_nil, or_false] at hi
  rcases hi with (rfl | ⟨d, rfl | rfl⟩ | rfl) | rfl | rfl | rfl
  · simp only [performed, emitted, List.append_nil]; rfl
  · simp only [performed, takeSample_with_fq, emitted, List.append_nil]; rfl
  · simp only [performed, takeSample_with_fq, emitted, List.append_nil]; rfl
  · simp only [performed, emitted, List.append_nil]; rfl
  · simp only [performed, sliceIndex_with_fq, emitted, List.append_nil]; rfl
  · simp only [performed, deliverBit_with_fq]; rfl
  · simp only [performed, emitted, List.append_nil]; rfl

/-- The queue after a command or datapath step. -/
theorem performed_fq {i : Instr} (hi : OnlyAppends i) (s : State) : (performed i s).fq = s.fq ++ emitted i s :=
  congrArg State.fq (performed_with_fq hi s s.fq)

/-! ### A `POP` beside such an operation -/

/-- Performed in either order, a `POP` and an operation that only appends lead to the same state but for the last answer, and the `POP` finds
the same frame, unless the operation fills an empty queue. -/
theorem performed_pop_commutes {i : Instr} (hi : OnlyAppends i) {s : State} (h : s.fq ≠ [] ∨ (performed i s).fq = s.fq) :
    { performed .pop (performed i s) with resp := (performed i s).resp } = performed i (performed .pop s) ∧
      (performed i s).fq.head? = s.fq.head? := by
  have hpop : performed i (performed .pop s) = { performed i s with fq := s.fq.tail ++ emitted i s } := by
    rw [performed, performed_respond, performed_with_fq hi]
  have hfq := performed_fq hi s
  have hends : (performed i s).fq.tail = s.fq.tail ++ emitted i s ∧ (performed i s).fq.head? = s.fq.head? := by
    rcases h with hne | hsame
    · rw [hfq]
      exact ⟨List.tail_append_of_ne_nil hne, List.head?_append_of_ne_nil _ hne⟩
    · have hnone : emitted i s = [] := by simpa [hsame] using hfq
      rw [hsame, hnone, List.append_nil]
      exact ⟨rfl, rfl⟩
  obtain ⟨htail, hhead⟩ := hends
  refine ⟨?_, hhead⟩
  rw [hpop, ← htail]
  rfl

/-- Two operations, one after the other. -/
theorem execAll_pair {i j : Instr} {s t u : State} (hi : exec i s = .next t) (hj : exec j t = .next u) :
    execAll [i, j] s = .next u := by
  rw [execAll_cons_of_exec hi, execAll_cons_of_exec hj]
  rfl

/-- A `POP` and an operation that only appends may change places, where the `POP` does not lift a hold and finds the same. -/
theorem execAll_pop_commutes {i : Instr} (hi : OnlyAppends i) {s t : State} (ht : exec i s = .next t)
    (hcond : (performed .pop s).enabled i = s.enabled i) (h : s.fq ≠ [] ∨ t.fq = s.fq) :
    ∃ u v, execAll [i, .pop] s = .next u ∧ execAll [.pop, i] s = .next v ∧ { u with resp := v.resp } = v ∧
      u.resp = .frame s.fq.head? ∧ v.resp = t.resp := by
  have hpop (s : State) : exec .pop s = .next (performed .pop s) := exec_of_enabled rfl
  rcases exec_cases ht with ⟨henabled, rfl⟩ | ⟨hheld, rfl⟩
  · obtain ⟨hstate, hhead⟩ := performed_pop_commutes hi h
    have hresp := congrArg State.resp hstate
    refine ⟨_, _, execAll_pair ht (hpop _), execAll_pair (hpop s) (exec_of_enabled (hcond.trans henabled)), ?_,
      congrArg Response.frame hhead, hresp.symm⟩
    rw [← hresp]
    exact hstate
  · exact ⟨_, _, execAll_pair ht (hpop _), execAll_pair (hpop s) (exec_of_not_enabled (hcond.trans hheld)), rfl, rfl, rfl⟩

/-- No condition of a command reads the queue (60_exceptions.md R181). -/
theorem enabled_command_after_pop {i : Instr} (hi : IsCommand i) (s : State) :
    (performed .pop s).enabled i = s.enabled i := by
  rcases hi with rfl | ⟨d, rfl | rfl⟩ | rfl <;> rfl

/-- Settles O53: a command reads and writes nothing of the queue. -/
theorem commandsCommuteWithPop : Obligations.CommandsCommuteWithPop := by
  intro s i hi
  obtain ⟨x, hx, hheld, _⟩ := operationsNeverFail i s
  have hfq : x.fq = s.fq := by
    rcases exec_cases hx with ⟨_, rfl⟩ | ⟨_, rfl⟩
    · exact performed_fq_of_isCommand hi s
    · rfl
  obtain ⟨t, u, ht, hu, hstate, hframe, hresp⟩ :=
    execAll_pop_commutes (.inl hi) hx (enabled_command_after_pop hi s) (.inr hfq)
  exact ⟨t, u, ht, hu, hstate, hframe, hresp ▸ hheld⟩

/-! ### A `POP` and a datapath step at one edge -/

/-- A `POP` lifts no hold of a datapath step but that of `BIT` on a full queue. -/
theorem enabled_step_after_pop_eq {s : State} {i : Instr} (hi : i ∈ [Instr.slice, .bit, .done]) (hqueue : QueueOk s)
    (hfull : i = .bit → s.cfg.fqDepth ≠ some s.fq.length) : (performed .pop s).enabled i = s.enabled i := by
  refine Bool.eq_iff_iff.2 ⟨fun hafter => ?_, enabled_step_after_pop hi⟩
  simp only [List.mem_cons, List.not_mem_nil, or_false] at hi
  rcases hi with rfl | rfl | rfl
  · exact hafter
  · obtain ⟨hscan, hpend, _⟩ := (canBit_iff _).1 hafter
    refine (canBit_iff s).2 ⟨hscan, hpend, fun n hn => ?_⟩
    have hle : s.fq.length ≤ n := (atMost_iff _ _).1 hqueue.1 n hn
    exact hle.lt_of_ne fun heq => hfull rfl (hn.trans (congrArg some heq.symm))
  · exact hafter

/-- A datapath step that puts a frame into the queue is an enabled `BIT`. -/
theorem bit_of_new_frame {s t : State} {i : Instr} (hi : i ∈ [Instr.slice, .bit, .done]) (ht : exec i s = .next t)
    (hnew : t.fq ≠ s.fq) : i = .bit ∧ s.enabled .bit = true ∧ t = performed .bit s := by
  rcases exec_cases ht with ⟨henabled, rfl⟩ | ⟨_, rfl⟩
  · rw [performed_fq (.inr hi)] at hnew
    simp only [List.mem_cons, List.not_mem_nil, or_false] at hi
    rcases hi with rfl | rfl | rfl
    · exact absurd (List.append_nil _) hnew
    · exact ⟨rfl, henabled, rfl⟩
    · exact absurd (List.append_nil _) hnew
  · exact absurd rfl hnew

/-- A `POP` from an empty queue only answers (40_block_control.md R106). -/
theorem performed_pop_of_empty {s : State} (h : s.fq = []) : performed .pop s = s.respond (.frame none) := by
  have hsame : { s with fq := s.fq.tail } = s := by rw [h, List.tail_nil, ← h]
  rw [performed, hsame, h, List.head?_nil]

/-- In a scan the command of an edge only answers. -/
theorem performAll_edgeCommand_of_scan (e : Edge) {s : State} (hscan : s.phase = .scan) :
    ∃ r, performAll (edgeCommand e s) s = s.respond r := by
  rcases edgeCommand_cases e s with hnone | ⟨c, hc, henabled, hone⟩
  · exact ⟨s.resp, by rw [hnone]; rfl⟩
  · exact ⟨.performed, by rw [hone, command_eq_nop_of_scan hscan hc henabled]; rfl⟩

/-- At an edge in a scan with `f_pop` the `POP` answers first, then the datapath steps (60_exceptions.md R185). -/
theorem clockEdge_pop_of_scan {e : Edge} {s : State} (hscan : s.phase = .scan) (hrst : e.rst = false) (hpop : e.fPop = true) :
    clockEdge e s = .next (performAll (edgeStep e s) (performed .pop s)) := by
  obtain ⟨r, hr⟩ := performAll_edgeCommand_of_scan e hscan
  rw [clockEdge_eq, edgeOps_of_not_rst hrst, performAll_append, performAll_append, hr, edgePop, if_pos hpop, performAll_cons,
    performed_respond]
  rfl

/-- An enabled `BIT` is the datapath's step of its edge. -/
theorem edgeStep_of_bit {e : Edge} {s : State} (hstep : e.dStep = true) (henabled : s.enabled .bit = true) :
    edgeStep e s = [.bit] := by
  have hbit : Instr.bit ∈ [Instr.slice, .bit, .done] := by simp
  rw [edgeStep, due_eq_of_enabled hbit henabled, hstep, scan_of_enabled_step hbit henabled, henabled]
  rfl

/-- With a bit pending and the queue full the datapath takes no step at an edge. -/
theorem edgeStep_of_full {e : Edge} {s : State} (hscan : s.phase = .scan) (hpend : 0 < s.pendf ∨ s.pendt = true)
    (hfull : s.cfg.fqDepth = some s.fq.length) : edgeStep e s = [] := by
  have hheld : s.enabled s.due = false := by
    rw [due_of_bitPending hscan ((bitPending_iff s).2 hpend)]
    exact canBit_of_full hfull
  rw [edgeStep, hheld, Bool.and_false]
  rfl

/-- Settles O56: the queue a `BIT` appends to and the room it needs are all that it shares with a `POP`. -/
theorem popMeetsDatapathStep : Obligations.PopMeetsDatapathStep := by
  intro s t i hi ht
  refine ⟨fun f hempty hframe => ?empty, fun hscan hpend hne hfull hbit => ?full, fun hcase hfull hqueue => ?agree⟩
  case empty =>
    obtain ⟨rfl, henabled, rfl⟩ := bit_of_new_frame hi ht (by simp [hempty, hframe])
    have hpop := performed_pop_of_empty hempty
    have hafter : performed .bit (s.respond (.frame none)) = performed .bit s := performed_respond _ _ _
    refine ⟨⟨_, _, _, exec_of_enabled rfl, by rw [hpop]; rfl, exec_of_enabled (enabled_step_after_pop hi henabled),
      by rw [hpop, hafter, hframe], exec_of_enabled rfl, congrArg (fun q : List Frame => Response.frame q.head?) hframe,
      congrArg List.tail hframe⟩, fun e hrst hfpop hstep => ?_⟩
    refine ⟨_, clockEdge_pop_of_scan (scan_of_enabled_step hi henabled) hrst hfpop, ?_⟩
    rw [edgeStep_of_bit hstep henabled, hpop]
    exact (congrArg State.fq hafter).trans hframe
  case full =>
    subst hbit
    obtain rfl := exec_next_unique ht (exec_of_not_enabled (canBit_of_full hfull))
    have hlifted := canBit_after_pop_of_full hscan hpend hne hfull
    refine ⟨rfl, ⟨_, execAll_pair (exec_of_enabled rfl) (exec_of_enabled hlifted), rfl⟩, fun e hrst hfpop => ?_⟩
    refine ⟨_, clockEdge_pop_of_scan hscan hrst hfpop, ?_⟩
    rw [edgeStep_of_full hscan hpend hfull]
    rfl
  case agree => exact execAll_pop_commutes (.inr hi) ht (enabled_step_after_pop_eq hi hqueue hfull) hcase

/-! ### Lanes -/

/-- A step of lane `k` is the block's own step over the shared queue (60_exceptions.md R192). -/
theorem lanes_exec_of_exec {sys : Lanes} {k : Nat} {i : Instr} {s t : State} (hk : sys.lanes[k]? = some s)
    (ht : exec i { s with fq := sys.fq } = .next t) : sys.exec k i = { lanes := sys.lanes.set k t, fq := t.fq } := by
  simp only [Lanes.exec, hk, ht]

/-- Settles O55: a step of a lane always has a next state, which takes the place of that lane alone. -/
theorem lanesShareOnlyTheQueue : Obligations.LanesShareOnlyTheQueue := by
  intro sys k i s hk
  obtain ⟨t, ht, _⟩ := operationsNeverFail i { s with fq := sys.fq }
  have hlt : k < sys.lanes.length := (List.getElem?_eq_some_iff.1 hk).1
  rw [lanes_exec_of_exec hk ht]
  exact ⟨⟨t, ht, rfl, List.getElem?_set_self hlt⟩, List.length_set, fun j hj => List.getElem?_set_ne hj.symm⟩

end Sys2Proof.Exceptions
end

section
/-!
PROOFS. The bound on the bits that a block decodes (70_reset_and_hazards.md R216).
-/

namespace Sys2Proof.Hazards

open Sys2Proof.Machine Sys2Proof.Scope Sys2Proof.Memory

/-- `NF(gap) + 1 <= gap` (70_reset_and_hazards.md R216): no more whole periods fit below a gap than there are indices below it. -/
theorem gapBits_length_le {period gap : Nat} (hp : 1 ≤ period) (hgap : 1 ≤ gap) : (gapBits period gap).length ≤ gap := by
  have hfalse : (gap - 1) / period ≤ gap - 1 := Nat.div_le_self _ _
  rw [gapBits_eq hp, List.length_append, List.length_replicate, List.length_singleton]
  omega

/-- The indices still to be examined decode to no more bits than lie from the last marked edge to the last index: the gaps of the edges still
to be marked add up to at most that distance (70_reset_and_hazards.md R216). -/
theorem scanBits_length_le {c : Config} (hperiod : 1 ≤ c.period) (e : List Rat) (m : Rat) (k n last : Nat) :
    (scanBits c e m (List.range' k n) last).length ≤ k + n - 1 - last := by
  induction n generalizing k last with
  | zero => exact Nat.zero_le _
  | succ n ih =>
    rw [List.range'_succ, scanBits]
    split
    next hmarked =>
      have hgap : 1 ≤ k - last := Nat.one_le_of_lt hmarked.2
      have hbits : (gapBits c.period (k - last)).length ≤ k - last := gapBits_length_le hperiod hgap
      have hrest := ih (k + 1) k
      rw [List.length_append]
      omega
    next =>
      have hrest := ih (k + 1) last
      omega

/-- Settles O44: at the start of a scan the last marked edge is index 0, and `len(ENV)` indices are to be examined. -/
theorem blockBitsAreBounded : Obligations.BlockBitsAreBounded := by
  intro c e hlegal
  obtain ⟨⟨_, _, hperiod⟩, _⟩ := (legal_iff c).1 hlegal
  rw [blockBits, List.range_eq_range']
  split
  next => exact Nat.zero_le _
  next =>
    calc (scanBits c e (e.sum / e.length) (List.range' 0 e.length) 0).length
        ≤ 0 + e.length - 1 - 0 := scanBits_length_le hperiod e _ 0 e.length 0
      _ = e.length - 1 := by omega

end Sys2Proof.Hazards
end
